-- ==== Sys2Proof/Word.lean ====
section
/-! DEFINITION. The words of the machine: what the spec treats as bits, and nothing else (00_scope.md R9: every value is an
unsigned number of its stated width, bit 0 the least significant). -/

namespace Sys2Proof

/-- An 8-bit value: a V register, a timer, a byte of MEM, the immediate NN (R10, R11, R63). -/
abbrev Byte := BitVec 8

/-- A 16-bit value: the instruction word, I, PC, a STACK entry, FINFO (R13 to R15, R23, R60). -/
abbrev Word := BitVec 16

/-- A 4-bit field: a register number X or Y, or the immediate N (R61). -/
abbrev Nibble := BitVec 4

/-- The 12-bit address field NNN (R61). -/
abbrev Addr := BitVec 12

end Sys2Proof
end

