-- ==== Sys2Proof/Syntax.lean ====
section
/-! DEFINITION. The 35 operations of 30_encoding.md R65, one constructor for each row of spec/opcode_table.json, in the
table's order. `x`, `y` are register numbers, `nn`, `nnn`, `n` the immediates of R61. -/

namespace Sys2Proof

inductive Instr where
  /-- 0NNN (not 00E0, 00EE), `SYS addr`: reports UnknownOpcode (R100). -/
  | sys (nnn : Addr)
  /-- 00E0, `CLS` (R151). -/
  | cls
  /-- 00EE, `RET` (R101). -/
  | ret
  /-- 1NNN, `JP addr` (R102). -/
  | jp (nnn : Addr)
  /-- 2NNN, `CALL addr` (R103). -/
  | call (nnn : Addr)
  /-- 3XNN, `SE Vx, byte` (R104). -/
  | seImm (x : Nibble) (nn : Byte)
  /-- 4XNN, `SNE Vx, byte` (R105). -/
  | sneImm (x : Nibble) (nn : Byte)
  /-- 5XY0, `SE Vx, Vy` (R106). -/
  | seReg (x y : Nibble)
  /-- 6XNN, `LD Vx, byte` (R120). -/
  | ldImm (x : Nibble) (nn : Byte)
  /-- 7XNN, `ADD Vx, byte` (R121). -/
  | addImm (x : Nibble) (nn : Byte)
  /-- 8XY0, `LD Vx, Vy` (R122). -/
  | ldReg (x y : Nibble)
  /-- 8XY1, `OR Vx, Vy` (R123). -/
  | orReg (x y : Nibble)
  /-- 8XY2, `AND Vx, Vy` (R124). -/
  | andReg (x y : Nibble)
  /-- 8XY3, `XOR Vx, Vy` (R125). -/
  | xorReg (x y : Nibble)
  /-- 8XY4, `ADD Vx, Vy` (R126). -/
  | addReg (x y : Nibble)
  /-- 8XY5, `SUB Vx, Vy` (R127). -/
  | sub (x y : Nibble)
  /-- 8XY6, `SHR Vx {, Vy}`: Y is decoded and ignored (R128). -/
  | shr (x y : Nibble)
  /-- 8XY7, `SUBN Vx, Vy` (R129). -/
  | subn (x y : Nibble)
  /-- 8XYE, `SHL Vx {, Vy}`: Y is decoded and ignored (R130). -/
  | shl (x y : Nibble)
  /-- 9XY0, `SNE Vx, Vy` (R107). -/
  | sneReg (x y : Nibble)
  /-- ANNN, `LD I, addr` (R140). -/
  | ldI (nnn : Addr)
  /-- BNNN, `JP V0, addr` (R108). -/
  | jpV0 (nnn : Addr)
  /-- CXNN, `RND Vx, byte` (R131). -/
  | rnd (x : Nibble) (nn : Byte)
  /-- DXYN, `DRW Vx, Vy, nibble` (R152). -/
  | drw (x y n : Nibble)
  /-- EX9E, `SKP Vx` (R160). -/
  | skp (x : Nibble)
  /-- EXA1, `SKNP Vx` (R161). -/
  | sknp (x : Nibble)
  /-- FX07, `LD Vx, DT` (R163). -/
  | ldVxDt (x : Nibble)
  /-- FX0A, `LD Vx, K` (R162). -/
  | ldVxK (x : Nibble)
  /-- FX15, `LD DT, Vx` (R164). -/
  | ldDtVx (x : Nibble)
  /-- FX18, `LD ST, Vx` (R165). -/
  | ldStVx (x : Nibble)
  /-- FX1E, `ADD I, Vx` (R141). -/
  | addI (x : Nibble)
  /-- FX29, `LD F, Vx` (R142). -/
  | ldF (x : Nibble)
  /-- FX33, `LD B, Vx` (R143). -/
  | ldB (x : Nibble)
  /-- FX55, `LD [I], Vx` (R144). -/
  | ldMemVx (x : Nibble)
  /-- FX65, `LD Vx, [I]` (R145). -/
  | ldVxMem (x : Nibble)
  deriving DecidableEq, Repr

end Sys2Proof
end

