-- ==== Sys2Proof/WellFormed.lean ====
section
/-! DEFINITION. Which terms of `Instr` are instructions. Every field's width is its type (30_encoding.md R61, R63: all values of
X, Y, N, NN, NNN are legal in every instruction that has the field); the one check left is that the two FIXED words take
precedence over SYS (R65, R67). -/

namespace Sys2Proof

/-- `SYS` stands for the words 0x0000 to 0x0FFF other than 0x00E0 (CLS) and 0x00EE (RET), by R67. -/
def sysAddressOk (nnn : Addr) : Bool := nnn != 0x0E0#12 && nnn != 0x0EE#12

/-- The well-formed instructions: those that some word of R65 stands for. -/
def WellFormed (i : Instr) : Bool :=
  match i with
  | .sys nnn => sysAddressOk nnn
  | .cls | .ret | .jp _ | .call _ | .seImm _ _ | .sneImm _ _ | .seReg _ _ | .ldImm _ _ | .addImm _ _ | .ldReg _ _
  | .orReg _ _ | .andReg _ _ | .xorReg _ _ | .addReg _ _ | .sub _ _ | .shr _ _ | .subn _ _ | .shl _ _ | .sneReg _ _
  | .ldI _ | .jpV0 _ | .rnd _ _ | .drw _ _ _ | .skp _ | .sknp _ | .ldVxDt _ | .ldVxK _ | .ldDtVx _ | .ldStVx _
  | .addI _ | .ldF _ | .ldB _ | .ldMemVx _ | .ldVxMem _ => true

end Sys2Proof
end

