-- ==== Sys2Proof/Decode.lean ====
section
/-! DEFINITION. Decode of the 16-bit instruction word (30_encoding.md R60 to R68), total, refusing by name; and after it the
encoder, written from the same map. -/

namespace Sys2Proof

/-- The families of words that match no row, one for each line of R66's table. Each is an unknown opcode: the Step reports
it, sets UNK and goes on (R83), so naming it here is safe. -/
inductive UnknownWord where
  /-- 5XYN with N ≠ 0. -/
  | skipEqual
  /-- 8XYN with N in 8, 9, A, B, C, D, F. -/
  | arithmetic
  /-- 9XYN with N ≠ 0. -/
  | skipNotEqual
  /-- EXNN with NN neither 9E nor A1. -/
  | keySkip
  /-- FXNN with NN none of the nine low bytes of R65. -/
  | miscellaneous
  deriving DecidableEq, Repr

/-- `OP = op[15:12]` (R61). -/
def fieldOp (op : Word) : Nibble := op.extractLsb' 12 4

/-- `X = op[11:8]` (R61). -/
def fieldX (op : Word) : Nibble := op.extractLsb' 8 4

/-- `Y = op[7:4]` (R61). -/
def fieldY (op : Word) : Nibble := op.extractLsb' 4 4

/-- `N = op[3:0]` (R61). -/
def fieldN (op : Word) : Nibble := op.extractLsb' 0 4

/-- `NN = op[7:0]` (R61). -/
def fieldNN (op : Word) : Byte := op.extractLsb' 0 8

/-- `NNN = op[11:0]` (R61). -/
def fieldNNN (op : Word) : Addr := op.extractLsb' 0 12

/-- Primary opcode 0x0, decoded on the whole word (R64). -/
def decodeZero (nnn : Addr) : Instr :=
  if nnn = 0x0E0#12 then .cls
  else if nnn = 0x0EE#12 then .ret
  else .sys nnn

/-- Primary opcode 0x8, decoded on the low nibble (R64). -/
def decodeArithmetic (x y n : Nibble) : Except UnknownWord Instr :=
  if n = 0x0#4 then .ok (.ldReg x y)
  else if n = 0x1#4 then .ok (.orReg x y)
  else if n = 0x2#4 then .ok (.andReg x y)
  else if n = 0x3#4 then .ok (.xorReg x y)
  else if n = 0x4#4 then .ok (.addReg x y)
  else if n = 0x5#4 then .ok (.sub x y)
  else if n = 0x6#4 then .ok (.shr x y)
  else if n = 0x7#4 then .ok (.subn x y)
  else if n = 0xE#4 then .ok (.shl x y)
  else .error .arithmetic

/-- Primary opcode 0xE, decoded on the low byte (R64). -/
def decodeKeySkip (x : Nibble) (nn : Byte) : Except UnknownWord Instr :=
  if nn = 0x9E#8 then .ok (.skp x)
  else if nn = 0xA1#8 then .ok (.sknp x)
  else .error .keySkip

/-- Primary opcode 0xF, decoded on the low byte (R64). -/
def decodeMiscellaneous (x : Nibble) (nn : Byte) : Except UnknownWord Instr :=
  if nn = 0x07#8 then .ok (.ldVxDt x)
  else if nn = 0x0A#8 then .ok (.ldVxK x)
  else if nn = 0x15#8 then .ok (.ldDtVx x)
  else if nn = 0x18#8 then .ok (.ldStVx x)
  else if nn = 0x1E#8 then .ok (.addI x)
  else if nn = 0x29#8 then .ok (.ldF x)
  else if nn = 0x33#8 then .ok (.ldB x)
  else if nn = 0x55#8 then .ok (.ldMemVx x)
  else if nn = 0x65#8 then .ok (.ldVxMem x)
  else .error .miscellaneous

/-- Dispatch on the primary opcode, the fields already pulled out (R64). -/
def decodeFields (op x y n : Nibble) (nn : Byte) (nnn : Addr) : Except UnknownWord Instr :=
  if op = 0x0#4 then .ok (decodeZero nnn)
  else if op = 0x1#4 then .ok (.jp nnn)
  else if op = 0x2#4 then .ok (.call nnn)
  else if op = 0x3#4 then .ok (.seImm x nn)
  else if op = 0x4#4 then .ok (.sneImm x nn)
  else if op = 0x5#4 then if n = 0#4 then .ok (.seReg x y) else .error .skipEqual
  else if op = 0x6#4 then .ok (.ldImm x nn)
  else if op = 0x7#4 then .ok (.addImm x nn)
  else if op = 0x8#4 then decodeArithmetic x y n
  else if op = 0x9#4 then if n = 0#4 then .ok (.sneReg x y) else .error .skipNotEqual
  else if op = 0xA#4 then .ok (.ldI nnn)
  else if op = 0xB#4 then .ok (.jpV0 nnn)
  else if op = 0xC#4 then .ok (.rnd x nn)
  else if op = 0xD#4 then .ok (.drw x y n)
  else if op = 0xE#4 then decodeKeySkip x nn
  else decodeMiscellaneous x nn

/-- Decode is a function of the word alone (R64). -/
def decode (op : Word) : Except UnknownWord Instr :=
  decodeFields (fieldOp op) (fieldX op) (fieldY op) (fieldN op) (fieldNN op) (fieldNNN op)

/-- The instruction word of two bytes, the first (at the lower address) high: `op = first * 256 + second` (R42, R60). -/
def wordOfBytes (first second : Byte) : Word := first.setWidth 16 <<< 8 ||| second.setWidth 16

/-- The decoder over bytes in memory order: the instruction of the first two and the bytes after them; nothing when fewer
than two are left (every instruction is two bytes, R68). -/
def decodeBytes (bytes : List Byte) : Option (Except UnknownWord Instr × List Byte) :=
  match bytes with
  | first :: second :: rest => some (decode (wordOfBytes first second), rest)
  | _ => none

/-- The first (high) and second (low) byte of a word as memory holds them (R42). -/
def bytesOfWord (w : Word) : List Byte := [w.extractLsb' 8 8, w.extractLsb' 0 8]

/-- A word of the opcode table, given as a number of which `nbits` bits count. -/
def tableWord (nbits w : Nat) : Word := BitVec.ofNat 16 (w % 2 ^ nbits)

/-- The instruction the decoder reads from a word of the opcode table laid out in memory order. -/
def decodeTableWord (nbits w : Nat) : Option Instr :=
  match decodeBytes (bytesOfWord (tableWord nbits w)) with
  | some (.ok i, _) => some i
  | _ => none

/-! ### The encoder -/

/-- A word of format NNN (R62). -/
def wordNNN (op : Nibble) (nnn : Addr) : Word := op.setWidth 16 <<< 12 ||| nnn.setWidth 16

/-- A word of format XNN (R62). -/
def wordXNN (op x : Nibble) (nn : Byte) : Word :=
  op.setWidth 16 <<< 12 ||| x.setWidth 16 <<< 8 ||| nn.setWidth 16

/-- A word of format XY or XYN; in format XY, `n` is the secondary opcode (R62). -/
def wordXYN (op x y n : Nibble) : Word :=
  op.setWidth 16 <<< 12 ||| x.setWidth 16 <<< 8 ||| y.setWidth 16 <<< 4 ||| n.setWidth 16

/-- The word of an instruction, by the map of R65. -/
def encode (i : Instr) : Word :=
  match i with
  | .sys nnn => wordNNN 0x0#4 nnn
  | .cls => 0x00E0#16
  | .ret => 0x00EE#16
  | .jp nnn => wordNNN 0x1#4 nnn
  | .call nnn => wordNNN 0x2#4 nnn
  | .seImm x nn => wordXNN 0x3#4 x nn
  | .sneImm x nn => wordXNN 0x4#4 x nn
  | .seReg x y => wordXYN 0x5#4 x y 0x0#4
  | .ldImm x nn => wordXNN 0x6#4 x nn
  | .addImm x nn => wordXNN 0x7#4 x nn
  | .ldReg x y => wordXYN 0x8#4 x y 0x0#4
  | .orReg x y => wordXYN 0x8#4 x y 0x1#4
  | .andReg x y => wordXYN 0x8#4 x y 0x2#4
  | .xorReg x y => wordXYN 0x8#4 x y 0x3#4
  | .addReg x y => wordXYN 0x8#4 x y 0x4#4
  | .sub x y => wordXYN 0x8#4 x y 0x5#4
  | .shr x y => wordXYN 0x8#4 x y 0x6#4
  | .subn x y => wordXYN 0x8#4 x y 0x7#4
  | .shl x y => wordXYN 0x8#4 x y 0xE#4
  | .sneReg x y => wordXYN 0x9#4 x y 0x0#4
  | .ldI nnn => wordNNN 0xA#4 nnn
  | .jpV0 nnn => wordNNN 0xB#4 nnn
  | .rnd x nn => wordXNN 0xC#4 x nn
  | .drw x y n => wordXYN 0xD#4 x y n
  | .skp x => wordXNN 0xE#4 x 0x9E#8
  | .sknp x => wordXNN 0xE#4 x 0xA1#8
  | .ldVxDt x => wordXNN 0xF#4 x 0x07#8
  | .ldVxK x => wordXNN 0xF#4 x 0x0A#8
  | .ldDtVx x => wordXNN 0xF#4 x 0x15#8
  | .ldStVx x => wordXNN 0xF#4 x 0x18#8
  | .addI x => wordXNN 0xF#4 x 0x1E#8
  | .ldF x => wordXNN 0xF#4 x 0x29#8
  | .ldB x => wordXNN 0xF#4 x 0x33#8
  | .ldMemVx x => wordXNN 0xF#4 x 0x55#8
  | .ldVxMem x => wordXNN 0xF#4 x 0x65#8

/-- The `mask` column of R65. -/
def rowMask (i : Instr) : Word :=
  match i with
  | .cls | .ret => 0xFFFF#16
  | .sys _ | .jp _ | .call _ | .seImm _ _ | .sneImm _ _ | .ldImm _ _ | .addImm _ _ | .ldI _ | .jpV0 _ | .rnd _ _
  | .drw _ _ _ => 0xF000#16
  | .seReg _ _ | .ldReg _ _ | .orReg _ _ | .andReg _ _ | .xorReg _ _ | .addReg _ _ | .sub _ _ | .shr _ _ | .subn _ _
  | .shl _ _ | .sneReg _ _ => 0xF00F#16
  | .skp _ | .sknp _ | .ldVxDt _ | .ldVxK _ | .ldDtVx _ | .ldStVx _ | .addI _ | .ldF _ | .ldB _ | .ldMemVx _
  | .ldVxMem _ => 0xF0FF#16

/-- The `match` column of R65. -/
def rowMatch (i : Instr) : Word :=
  match i with
  | .sys _ => 0x0000#16
  | .cls => 0x00E0#16
  | .ret => 0x00EE#16
  | .jp _ => 0x1000#16
  | .call _ => 0x2000#16
  | .seImm _ _ => 0x3000#16
  | .sneImm _ _ => 0x4000#16
  | .seReg _ _ => 0x5000#16
  | .ldImm _ _ => 0x6000#16
  | .addImm _ _ => 0x7000#16
  | .ldReg _ _ => 0x8000#16
  | .orReg _ _ => 0x8001#16
  | .andReg _ _ => 0x8002#16
  | .xorReg _ _ => 0x8003#16
  | .addReg _ _ => 0x8004#16
  | .sub _ _ => 0x8005#16
  | .shr _ _ => 0x8006#16
  | .subn _ _ => 0x8007#16
  | .shl _ _ => 0x800E#16
  | .sneReg _ _ => 0x9000#16
  | .ldI _ => 0xA000#16
  | .jpV0 _ => 0xB000#16
  | .rnd _ _ => 0xC000#16
  | .drw _ _ _ => 0xD000#16
  | .skp _ => 0xE09E#16
  | .sknp _ => 0xE0A1#16
  | .ldVxDt _ => 0xF007#16
  | .ldVxK _ => 0xF00A#16
  | .ldDtVx _ => 0xF015#16
  | .ldStVx _ => 0xF018#16
  | .addI _ => 0xF01E#16
  | .ldF _ => 0xF029#16
  | .ldB _ => 0xF033#16
  | .ldMemVx _ => 0xF055#16
  | .ldVxMem _ => 0xF065#16

end Sys2Proof
end

