-- ==== Sys2Proof/Config.lean ====
section
/-! DEFINITION. What the implementation fixes (00_scope.md R4, R5) and the one free value (R131). -/

namespace Sys2Proof.Config

/-- MEM_SIZE: bytes of main memory (R4). -/
abbrev memSize : Nat := 4096

/-- PROG_BASE: where a program is loaded, and the reset value of PC (R4). -/
abbrev progBase : Nat := 0x200

/-- ROM_MAX: the largest ROM image in bytes (R4). -/
abbrev romMax : Nat := 3584

/-- STACK_DEPTH: return-address slots (R4). -/
abbrev stackDepth : Nat := 16

/-- DISP_W: the display's width in pixels (R4). -/
abbrev dispWidth : Nat := 64

/-- The display's pixels, DISP_W times DISP_H (R4). -/
abbrev dispSize : Nat := 2048

/-- NKEYS: the keys of the keypad (R4). -/
abbrev keyCount : Nat := 16

/-- FONT_LEN: bytes of font data (R4). -/
abbrev fontLength : Nat := 80

/-- The two readings of DRW's collision sentence (R5, 90_conflicts.md C4); which one the machine uses is
`Machine.drwCollision`. -/
inductive DrwCollision where
  /-- VF is 1 when any toggled pixel was lit. -/
  | any
  /-- VF is the value the last toggled pixel had. -/
  | last
  deriving DecidableEq, Repr

/-- FREE VALUE (assumption log 1): `rnd_in`, the byte the n-th executed RND draws, "under no law" (R88, R131). It has no
body, so nothing can be proved of any of its values. -/
opaque rndIn : Nat → Byte

end Sys2Proof.Config
end

