-- ==== Sys2Proof/Machine/Font.lean ====
section
/-! DEFINITION. The font (10_state.md R29) and what main memory holds after Reset (R30). -/

namespace Sys2Proof.Machine

/-- FONT_BASE (R5, R29; 90_conflicts.md C1; UNVERIFIED, unsafe, log 22). -/
def fontBase : Nat := 0x000

/-- FONT: the table of R29, glyphs 0 to F, five bytes each, top row first. PRESUMED, unsafe (log 3): the spec gives
the table from general knowledge. -/
def font : List Byte :=
  [0xF0, 0x90, 0x90, 0x90, 0xF0] ++ [0x20, 0x60, 0x20, 0x20, 0x70] ++
  [0xF0, 0x10, 0xF0, 0x80, 0xF0] ++ [0xF0, 0x10, 0xF0, 0x10, 0xF0] ++
  [0x90, 0x90, 0xF0, 0x10, 0x10] ++ [0xF0, 0x80, 0xF0, 0x10, 0xF0] ++
  [0xF0, 0x80, 0xF0, 0x90, 0xF0] ++ [0xF0, 0x10, 0x20, 0x40, 0x40] ++
  [0xF0, 0x90, 0xF0, 0x90, 0xF0] ++ [0xF0, 0x90, 0xF0, 0x10, 0xF0] ++
  [0xF0, 0x90, 0xF0, 0x90, 0x90] ++ [0xE0, 0x90, 0xE0, 0x90, 0xE0] ++
  [0xF0, 0x80, 0x80, 0x80, 0xF0] ++ [0xE0, 0x90, 0x90, 0x90, 0xE0] ++
  [0xF0, 0x80, 0xF0, 0x80, 0xF0] ++ [0xF0, 0x80, 0xF0, 0x80, 0x80]

/-- What an unlisted address of memory reads as: its byte after Reset (R30), the font and zero elsewhere. -/
def initialByte (a : Nat) : Byte := if fontBase ≤ a then font.getD (a - fontBase) 0 else 0

end Sys2Proof.Machine
end

