-- ==== Sys2Proof/Machine/State.lean ====
section
/-! DEFINITION. The state of the machine (10_state.md R10 to R24, R26), its stop reasons, and the state after Reset (R30). -/

namespace Sys2Proof.Machine

/-- Main memory MEM (R10): the bytes that differ from what an unlisted address reads as, sorted by address. -/
abbrev Memory := List Host.Cell

/-- The register file V (R11). -/
abbrev Regs := Vector Byte 16

/-- The display buffer (R19): bit `x + 64 * y` is the pixel of column x and row y, 1 lit. -/
abbrev Display := BitVec 2048

/-- The halting faults of 60_exceptions.md R170. The machine TAKES each of them: the faulting Step ends in a NEXT state with
HALT, FCAUSE and FINFO written (R181), so no step answers `Host.Outcome.fault`. All are safe: the machine halts where the
spec says it halts (assumption log 2). -/
inductive Fault where
  /-- Raised by CALL with SP = 16 (R172); safe. -/
  | stackOverflow
  /-- Raised by RET with SP = 0 (R173); safe. -/
  | stackUnderflow
  /-- Raised by the fetch, DRW, LD B, LD [I], LD Vx,[I] for an address above 4095 (R174); `address` is the lowest one; safe. -/
  | outOfBoundsMemoryAccess (address : Nat)
  /-- Raised by DRW for a set sprite bit whose pixel index is above 2047 (R175); `index` is the first one; safe. -/
  | outOfBoundsDisplayAccess (index : Nat)
  /-- Raised by SKP and SKNP for V[X] above 15 (R176); `key` is V[X]; safe. -/
  | keyIndexOutOfRange (key : Byte)
  deriving DecidableEq, Repr

/-- The reasons for which an instruction has no meaning. Every instruction of the table has one, so none is ever given. -/
inductive Refusal where
  /-- Given only by an arm of `exec` that has no meaning yet; no arm is left so. Safe: the model stops. -/
  | notModelled (mnemonic : String)
  deriving DecidableEq, Repr

/-- Everything the spec gives the machine (R26), and the counter of draws, which is the model's own. -/
structure State where
  /-- MEM (R10). -/
  mem : Memory
  /-- V0 to VF (R11, R12). -/
  v : Regs
  /-- I, all 16 bits, never masked (R13). -/
  i : Word
  /-- PC (R14). -/
  pc : Word
  /-- STACK (R15). -/
  stack : Vector Word 16
  /-- SP: the entries in use, 0 to 16 (R16). -/
  sp : Fin 17
  /-- DT (R17). -/
  dt : Byte
  /-- ST (R18). -/
  st : Byte
  /-- DISP (R19). -/
  disp : Display
  /-- KEYS (R20): bit k is key k, 1 down. -/
  keys : BitVec 16
  /-- REDRAW (R21). -/
  redraw : Bool
  /-- BEEP (R22). -/
  beep : Bool
  /-- HALT (R23). -/
  halt : Bool
  /-- FCAUSE (R23). -/
  fcause : BitVec 3
  /-- FINFO (R23). -/
  finfo : Word
  /-- UNK (R24). -/
  unk : Bool
  /-- How many draws RND has consumed: the MODEL'S OWN, the index of the next free value; a
  Reset lets it go on (log 1). -/
  draws : Nat
  deriving DecidableEq, Repr

/-- The machine after Reset: the table of R30. Memory lists nothing, so it reads as R30's MEM. `draws` is 0 in this one state, a
DESIGN CHOICE, safe (log 1). -/
def State.reset : State where
  mem := []
  v := Vector.replicate 16 0
  i := 0
  pc := 0x0200
  stack := Vector.replicate 16 0
  sp := 0
  dt := 0
  st := 0
  disp := 0
  keys := 0
  redraw := false
  beep := false
  halt := false
  fcause := 0
  finfo := 0
  unk := false
  draws := 0

end Sys2Proof.Machine
end

