-- ==== Sys2Proof/Machine/Ops.lean ====
section
/-! DEFINITION. The named operations: memory, registers, PC, stack, display, keys, the fault entry, the unknown opcode, the
timer tick, the fetch. Every meaning is written over these. -/

namespace Sys2Proof.Machine

/-! ### Memory (20_memory.md) -/

/-- The byte at an address: the listed one, else the one Reset left (R30, R41). -/
def Memory.read (m : Memory) (a : Nat) : Byte :=
  match m with
  | [] => initialByte a
  | (c, b) :: rest => if a = c then b else Memory.read rest a

/-- The list without the address. -/
def Memory.erase (m : Memory) (a : Nat) : Memory :=
  match m with
  | [] => []
  | (c, b) :: rest => if a = c then rest else (c, b) :: Memory.erase rest a

/-- The list with the byte at the address, in its place by address. -/
def Memory.insert (m : Memory) (a : Nat) (v : Byte) : Memory :=
  match m with
  | [] => [(a, v)]
  | (c, b) :: rest =>
    if a < c then (a, v) :: (c, b) :: rest
    else if a = c then (a, v) :: rest
    else (c, b) :: Memory.insert rest a v

/-- `MEM[a] <- v` in canonical form (R45). An address that does not exist is left alone; every caller has checked it (R41;
DESIGN CHOICE, safe, log 24). -/
def Memory.write (m : Memory) (a : Nat) (v : Byte) : Memory :=
  if a < Config.memSize then
    if v = initialByte a then Memory.erase m a else Memory.insert m a v
  else m

/-- The canonical form: addresses strictly rising and inside memory, no entry that an unlisted address would read as. -/
abbrev Memory.wf (m : Memory) : Prop :=
  m.Pairwise (fun p q => p.1 < q.1) ∧ ∀ p ∈ m, p.1 < Config.memSize ∧ p.2 ≠ initialByte p.1

/-- The bytes at `base`, `base + 1`, ..., ascending (R43). -/
def Memory.readRun (m : Memory) (base count : Nat) : List Byte :=
  match count with
  | 0 => []
  | n + 1 => Memory.read m base :: Memory.readRun m (base + 1) n

/-- The bytes written at `base`, `base + 1`, ..., one at a time, ascending (R43). -/
def Memory.writeRun (m : Memory) (base : Nat) (bytes : List Byte) : Memory :=
  match bytes with
  | [] => m
  | b :: rest => Memory.writeRun (Memory.write m base b) (base + 1) rest

/-- Whether `count` bytes at `base` all have addresses up to 4095 (R41); no byte needs no address (R152, N = 0). -/
abbrev runInMemory (base count : Nat) : Prop := count = 0 ∨ base + count ≤ Config.memSize

/-- The fault of a run that leaves memory: its lowest address above 4095 (R41, R170). -/
def runFault (base : Nat) : Fault := .outOfBoundsMemoryAccess (max base Config.memSize)

/-- Read a run, all addresses checked first (R41, R86). -/
def readChecked (m : Memory) (base count : Nat) : Except Fault (List Byte) :=
  if runInMemory base count then .ok (Memory.readRun m base count) else .error (runFault base)

/-- Write a run, all addresses checked first (R41, R86). -/
def writeChecked (m : Memory) (base : Nat) (bytes : List Byte) : Except Fault Memory :=
  if runInMemory base bytes.length then .ok (Memory.writeRun m base bytes) else .error (runFault base)

/-! ### Registers (10_state.md R11 to R14, R17, R18) -/

/-- `V[x]`. -/
def getReg (s : State) (x : Nibble) : Byte := s.v[x.toNat]'x.isLt

/-- `V[x] <- b`. -/
def setReg (s : State) (x : Nibble) (b : Byte) : State := { s with v := s.v.set x.toNat b x.isLt }

/-- The whole register file. -/
def setRegs (s : State) (v : Regs) : State := { s with v := v }

/-- `I <- w`. -/
def setIndex (s : State) (w : Word) : State := { s with i := w }

/-- `DT <- b`. -/
def setDelay (s : State) (b : Byte) : State := { s with dt := b }

/-- `ST <- b`. -/
def setSound (s : State) (b : Byte) : State := { s with st := b }

/-- Main memory replaced by what a run of writes left. -/
def setMem (s : State) (m : Memory) : State := { s with mem := m }

/-- `PC <- w`. -/
def setPc (s : State) (w : Word) : State := { s with pc := w }

/-- `PC <- next`: `(PC + 2) mod 65536` (R84). -/
def advance (s : State) : State := setPc s (s.pc + 2)

/-- `PC <- skip` when the condition holds, else `PC <- next` (R84). -/
def skipIf (condition : Bool) (s : State) : State := setPc s (if condition then s.pc + 4 else s.pc + 2)

/-- The first `count` bytes of a list into V0, V1, ..., ascending (R145); registers past the list keep their values. -/
def loadRegs (v : Regs) (first : Nat) (bytes : List Byte) : Regs :=
  match bytes with
  | [] => v
  | b :: rest => loadRegs (v.setIfInBounds first b) (first + 1) rest

/-- The values of V0 to V[x], ascending (R144). -/
def storedRegs (v : Regs) (x : Nibble) : List Byte := v.toList.take (x.toNat + 1)

/-! ### The call stack (R15, R16) -/

/-- STACK and SP replaced together. -/
def setStack (s : State) (stack : Vector Word 16) (sp : Fin 17) : State := { s with stack := stack, sp := sp }

/-- `STACK[SP] <- PC; SP <- SP + 1`, or StackOverflow when SP = 16 (R103). -/
def pushPc (s : State) : Except Fault State :=
  if h : s.sp.val < 16 then
    .ok (setStack s (s.stack.set s.sp.val s.pc h) ⟨s.sp.val + 1, Nat.succ_lt_succ h⟩)
  else .error .stackOverflow

/-- `SP <- SP - 1`, with the entry STACK[SP] read with the new SP, or StackUnderflow when SP = 0 (R101). The entry stays. -/
def popEntry (s : State) : Except Fault (Word × State) :=
  match s.sp with
  | ⟨0, _⟩ => .error .stackUnderflow
  | ⟨n + 1, h⟩ => .ok (s.stack[n]'(Nat.lt_of_succ_lt_succ h), setStack s s.stack ⟨n, Nat.lt_of_succ_lt h⟩)

/-! ### Display and keys (R19 to R21) -/

/-- `DISP[index]`. -/
def pixel (d : Display) (index : Nat) : Bool := d.getLsbD index

/-- `DISP[index] <- DISP[index] ^ 1`. -/
def togglePixel (d : Display) (index : Nat) : Display := d ^^^ BitVec.twoPow 2048 index

/-- The display replaced and REDRAW set (R21). -/
def showDisplay (s : State) (d : Display) : State := { s with disp := d, redraw := true }

/-- `KEYS[k]`. -/
def keyDown (s : State) (k : Nat) : Bool := s.keys.getLsbD k

/-! ### The free draw (R131) -/

/-- `draw8()`: the byte `rnd_in` of this Step, a free value (DESIGN CHOICE, safe, log 1). -/
def drawnByte (s : State) : Byte := Config.rndIn s.draws

/-- The draw is consumed, so the next one is another free value. -/
def consumeDraw (s : State) : State := { s with draws := s.draws + 1 }

/-! ### Faults and events (60_exceptions.md) -/

/-- The cause code of a halting fault (R170). -/
def Fault.code (f : Fault) : BitVec 3 :=
  match f with
  | .stackOverflow => 2
  | .stackUnderflow => 3
  | .outOfBoundsMemoryAccess _ => 4
  | .outOfBoundsDisplayAccess _ => 5
  | .keyIndexOutOfRange _ => 6

/-- The information word of a halting fault (R170). -/
def Fault.info (f : Fault) : Word :=
  match f with
  | .stackOverflow => 16
  | .stackUnderflow => 0
  | .outOfBoundsMemoryAccess a => BitVec.ofNat 16 a
  | .outOfBoundsDisplayAccess idx => BitVec.ofNat 16 idx
  | .keyIndexOutOfRange k => k.setWidth 16

/-- Fault entry (R181): HALT, FCAUSE and FINFO are written and nothing else; PC stays at the faulting instruction. There is no
return from a fault (R182); only Reset (`Machine.hostReset`) leaves it. -/
def raise (f : Fault) (s : State) : State := { s with halt := true, fcause := f.code, finfo := f.info }

/-- An instruction whose checks are done: its own next state, or the fault taken in the state at the start (R86). -/
def orRaise (s : State) (r : Except Fault State) : Host.Outcome State Fault Refusal :=
  match r with
  | .ok t => .next t
  | .error f => .next (raise f s)

/-- The UnknownOpcode event (R83, R171): UNK set, PC advanced by 2; the Step reports it in its result. -/
def unknownOpcode (s : State) : State := { s with unk := true, pc := s.pc + 2 }

/-! ### The Step's other phases (40_step_cycle.md) -/

/-- A timer's decrement, which stops at 0 (R85). -/
def countDown (b : Byte) : Byte := if b = 0 then 0 else b - 1

/-- The timer tick (R85; once per Step: UNVERIFIED, unsafe, log 21). -/
def tick (s : State) : State :=
  { s with dt := countDown s.dt, st := countDown s.st, beep := s.beep || s.st == 1 }

/-- Fetch (R82): the big-endian word at PC, both addresses checked first. -/
def fetch (s : State) : Except Fault Word :=
  if runInMemory s.pc.toNat 2 then
    .ok (wordOfBytes (Memory.read s.mem s.pc.toNat) (Memory.read s.mem (s.pc.toNat + 1)))
  else .error (runFault s.pc.toNat)

/-- The bytes of an instruction placed where the next fetch reads them. -/
def placeAtPc (s : State) (bytes : List Byte) : State := setMem s (Memory.writeRun s.mem s.pc.toNat bytes)

end Sys2Proof.Machine
end

