-- ==== Sys2Proof/Machine/Flags.lean ====
section
/-! DEFINITION. Every flag the spec computes: the five arithmetic ones (42_alu.md R126 to R130, R132) and DRW's collision
(44_display.md R152). VF holds 0 or 1 as a flag (R12). -/

namespace Sys2Proof.Machine

/-- A flag as the byte VF holds (R12). -/
def flagByte (b : Bool) : Byte := if b then 1 else 0

/-- VF's register number. -/
def vf : Nibble := 0xF#4

/-- Carry of a + b: `b > 255 - a` (R126). -/
def carryFlag (a b : Byte) : Byte := flagByte (decide (255 - a.toNat < b.toNat))

/-- No borrow in a - b: `a >= b` (R127; R129 with the operands exchanged). -/
def notBorrowFlag (a b : Byte) : Byte := flagByte (decide (b.toNat ≤ a.toNat))

/-- The bit a right shift drops: bit 0 (R128). -/
def shrFlag (a : Byte) : Byte := flagByte (a.getLsbD 0)

/-- The bit a left shift drops: bit 7 (R130). -/
def shlFlag (a : Byte) : Byte := flagByte (a.getLsbD 7)

/-- The two writes of a flag-writing instruction: the result, then the flag (R132; UNVERIFIED, unsafe, log 4). -/
def setResultThenFlag (s : State) (x : Nibble) (result flag : Byte) : State := setReg (setReg s x result) vf flag

/-- DRW_COLLISION (R5; 90_conflicts.md C4; UNVERIFIED, unsafe, log 5). -/
def drwCollision : Config.DrwCollision := .any

/-- One toggled pixel of the blit: the display and the collision flag before it to those after it (R152). -/
def blitPixel (mode : Config.DrwCollision) (acc : Display × Bool) (index : Nat) : Display × Bool :=
  (togglePixel acc.1 index,
    match mode with
    | .any => acc.2 || pixel acc.1 index
    | .last => pixel acc.1 index)

/-- The blit: VF cleared, then every set sprite bit toggles its pixel in drawing order (R152). -/
def blit (mode : Config.DrwCollision) (d : Display) (pixels : List Nat) : Display × Bool :=
  pixels.foldl (blitPixel mode) (d, false)

end Sys2Proof.Machine
end

