-- ==== Sys2Proof/Machine/Operands.lean ====
section
/-! DEFINITION. The operand forms: what a field of the instruction word stands for (30_encoding.md R63; 43_index_memory.md,
index plus offset; 44_display.md R150). -/

namespace Sys2Proof.Machine

/-- `NNN` zero-extended to 16 bits (R63). -/
def addrOperand (nnn : Addr) : Word := nnn.setWidth 16

/-- A byte zero-extended to 16 bits, for the 16-bit sums of R108 and R141. -/
def byteOperand (b : Byte) : Word := b.setWidth 16

/-- The address `I + k`, a natural number without wrap (R41). -/
def indexAddress (s : State) (k : Nat) : Nat := s.i.toNat + k

/-- The register range V0 to V[x] has X + 1 registers (R144, R145). -/
def rangeLength (x : Nibble) : Nat := x.toNat + 1

/-- The address of the glyph of a digit: `FONT_BASE + 5 * V[X]`, the value not masked (R142; UNVERIFIED, unsafe, log 16). -/
def glyphAddress (b : Byte) : Word := BitVec.ofNat 16 (fontBase + 5 * b.toNat)

/-- The key number in a register, or KeyIndexOutOfRange above 15 (R160, R161; UNVERIFIED, safe, log 13). -/
def keyOperand (b : Byte) : Except Fault Nat :=
  if b.toNat < Config.keyCount then .ok b.toNat else .error (.keyIndexOutOfRange b)

/-- The digits of a byte as LD B stores them: hundreds, tens, ones, the ones by R143's modulo sequence. -/
def bcdDigits (b : Byte) : List Byte :=
  [BitVec.ofNat 8 (b.toNat / 100), BitVec.ofNat 8 (b.toNat / 10 % 10), BitVec.ofNat 8 (b.toNat % 100 % 10)]

/-- `idx(r, c) = x0 + c + 64 * (y0 + r)`, no wrap, no clip (R150). -/
def pixelIndex (x0 y0 r c : Nat) : Nat := x0 + c + Config.dispWidth * (y0 + r)

/-- Whether column c of a sprite row is set: bit 7 of the byte is the leftmost pixel (R152; UNVERIFIED, unsafe, log
23). -/
def spriteBit (row : Byte) (c : Nat) : Bool := row.getLsbD (7 - c)

/-- The pixel indexes of the set bits of one sprite row, columns ascending. -/
def rowPixels (x0 y0 r : Nat) (row : Byte) : List Nat :=
  ((List.range 8).filter (spriteBit row)).map (pixelIndex x0 y0 r)

/-- The pixel indexes of the set bits of a sprite, rows ascending from row r, then columns ascending (R152). -/
def spritePixels (x0 y0 r : Nat) (rows : List Byte) : List Nat :=
  match rows with
  | [] => []
  | row :: rest => rowPixels x0 y0 r row ++ spritePixels x0 y0 (r + 1) rest

end Sys2Proof.Machine
end

