-- ==== Sys2Proof/Machine/Alu.lean ====
section
/-! DEFINITION. The register load, arithmetic, logic, shift and random instructions (42_alu.md R120 to R133). Each reads its
operands from the state at the start, writes, and ends with `PC <- next`. -/

namespace Sys2Proof.Machine

/-- A register result with no flag: V[x] written, PC advanced. -/
def regResult (x : Nibble) (result : Byte) (s : State) : State := advance (setReg s x result)

/-- A register result with its flag in VF, the flag last (R132). -/
def flaggedResult (x : Nibble) (result flag : Byte) (s : State) : State :=
  advance (setResultThenFlag s x result flag)

/-- `LD Vx, byte` (R120). -/
def execLdImm (x : Nibble) (nn : Byte) (s : State) : Host.Outcome State Fault Refusal := .next (regResult x nn s)

/-- `ADD Vx, byte`: modulo 256, no flag (R121). -/
def execAddImm (x : Nibble) (nn : Byte) (s : State) : Host.Outcome State Fault Refusal :=
  .next (regResult x (getReg s x + nn) s)

/-- `LD Vx, Vy` (R122). -/
def execLdReg (x y : Nibble) (s : State) : Host.Outcome State Fault Refusal := .next (regResult x (getReg s y) s)

/-- `OR Vx, Vy` (R123). -/
def execOrReg (x y : Nibble) (s : State) : Host.Outcome State Fault Refusal :=
  .next (regResult x (getReg s x ||| getReg s y) s)

/-- `AND Vx, Vy` (R124). -/
def execAndReg (x y : Nibble) (s : State) : Host.Outcome State Fault Refusal :=
  .next (regResult x (getReg s x &&& getReg s y) s)

/-- `XOR Vx, Vy` (R125). -/
def execXorReg (x y : Nibble) (s : State) : Host.Outcome State Fault Refusal :=
  .next (regResult x (getReg s x ^^^ getReg s y) s)

/-- `ADD Vx, Vy` with carry out (R126). -/
def execAddReg (x y : Nibble) (s : State) : Host.Outcome State Fault Refusal :=
  .next (flaggedResult x (getReg s x + getReg s y) (carryFlag (getReg s x) (getReg s y)) s)

/-- `SUB Vx, Vy`: V[X] - V[Y] (R127). -/
def execSub (x y : Nibble) (s : State) : Host.Outcome State Fault Refusal :=
  .next (flaggedResult x (getReg s x - getReg s y) (notBorrowFlag (getReg s x) (getReg s y)) s)

/-- `SHR Vx`: V[X] shifted right by one; V[Y] is neither read nor written (R128). -/
def execShr (x _y : Nibble) (s : State) : Host.Outcome State Fault Refusal :=
  .next (flaggedResult x (getReg s x >>> 1) (shrFlag (getReg s x)) s)

/-- `SUBN Vx, Vy`: V[Y] - V[X] into V[X] (R129). -/
def execSubn (x y : Nibble) (s : State) : Host.Outcome State Fault Refusal :=
  .next (flaggedResult x (getReg s y - getReg s x) (notBorrowFlag (getReg s y) (getReg s x)) s)

/-- `SHL Vx`: V[X] shifted left by one; V[Y] is neither read nor written (R130). -/
def execShl (x _y : Nibble) (s : State) : Host.Outcome State Fault Refusal :=
  .next (flaggedResult x (getReg s x <<< 1) (shlFlag (getReg s x)) s)

/-- `RND Vx, byte`: the draw and the mask; the draw is consumed (R131). -/
def execRnd (x : Nibble) (nn : Byte) (s : State) : Host.Outcome State Fault Refusal :=
  .next (consumeDraw (regResult x (drawnByte s &&& nn) s))

end Sys2Proof.Machine
end

