-- ==== Sys2Proof/Machine/ControlFlow.lean ====
section
/-! DEFINITION. The control-transfer instructions (41_control_flow.md R100 to R108). -/

namespace Sys2Proof.Machine

/-- `SYS addr` behaves as an unknown opcode; NNN has no effect (R100). -/
def execSys (_nnn : Addr) (s : State) : Host.Outcome State Fault Refusal := .next (unknownOpcode s)

/-- RET's effect: the entry popped, and PC two past the CALL it names. -/
def returnFromCall (s : State) : Except Fault State :=
  match popEntry s with
  | .ok (entry, t) => .ok (setPc t (entry + 2))
  | .error f => .error f

/-- `RET` (R101). -/
def execRet (s : State) : Host.Outcome State Fault Refusal := orRaise s (returnFromCall s)

/-- `JP addr` (R102). -/
def execJp (nnn : Addr) (s : State) : Host.Outcome State Fault Refusal := .next (setPc s (addrOperand nnn))

/-- CALL's effect: the address of the CALL itself pushed, PC at the target. -/
def callAddress (nnn : Addr) (s : State) : Except Fault State :=
  match pushPc s with
  | .ok t => .ok (setPc t (addrOperand nnn))
  | .error f => .error f

/-- `CALL addr` (R103). -/
def execCall (nnn : Addr) (s : State) : Host.Outcome State Fault Refusal := orRaise s (callAddress nnn s)

/-- `SE Vx, byte` (R104). -/
def execSeImm (x : Nibble) (nn : Byte) (s : State) : Host.Outcome State Fault Refusal :=
  .next (skipIf (getReg s x == nn) s)

/-- `SNE Vx, byte` (R105). -/
def execSneImm (x : Nibble) (nn : Byte) (s : State) : Host.Outcome State Fault Refusal :=
  .next (skipIf (getReg s x != nn) s)

/-- `SE Vx, Vy` (R106). -/
def execSeReg (x y : Nibble) (s : State) : Host.Outcome State Fault Refusal :=
  .next (skipIf (getReg s x == getReg s y) s)

/-- `SNE Vx, Vy` (R107). -/
def execSneReg (x y : Nibble) (s : State) : Host.Outcome State Fault Refusal :=
  .next (skipIf (getReg s x != getReg s y) s)

/-- `JP V0, addr`: NNN + V0, not masked (R108). -/
def execJpV0 (nnn : Addr) (s : State) : Host.Outcome State Fault Refusal :=
  .next (setPc s (addrOperand nnn + byteOperand (getReg s 0)))

end Sys2Proof.Machine
end

