-- ==== Sys2Proof/Machine/DisplayOps.lean ====
section
/-! DEFINITION. The display instructions (44_display.md R150 to R152). -/

namespace Sys2Proof.Machine

/-- `CLS`: every pixel 0, REDRAW set (R151). -/
def execCls (s : State) : Host.Outcome State Fault Refusal := .next (advance (showDisplay s 0))

/-- Phase 1 of DRW: the pixels of the set sprite bits in drawing order, or the first check that fails, memory before display
(R152, R180). -/
def spriteChecked (s : State) (x0 y0 count : Nat) : Except Fault (List Nat) :=
  match readChecked s.mem (indexAddress s 0) count with
  | .error f => .error f
  | .ok rows =>
    match (spritePixels x0 y0 0 rows).find? (fun idx => decide (Config.dispSize ≤ idx)) with
    | some idx => .error (.outOfBoundsDisplayAccess idx)
    | none => .ok (spritePixels x0 y0 0 rows)

/-- Phase 2 of DRW: the blit, the collision flag in VF, REDRAW set (R152). -/
def drawPixels (pixels : List Nat) (s : State) : State :=
  advance (showDisplay (setReg s vf (flagByte (blit drwCollision s.disp pixels).2)) (blit drwCollision s.disp pixels).1)

/-- `DRW Vx, Vy, nibble`: the coordinates are read before VF is written (R152). -/
def execDrw (x y n : Nibble) (s : State) : Host.Outcome State Fault Refusal :=
  orRaise s ((spriteChecked s (getReg s x).toNat (getReg s y).toNat n.toNat).map (fun pixels => drawPixels pixels s))

end Sys2Proof.Machine
end

