-- ==== Sys2Proof/Machine/Index.lean ====
section
/-! DEFINITION. The index-register and memory instructions (43_index_memory.md R140 to R145). -/

namespace Sys2Proof.Machine

/-- `LD I, addr` (R140). -/
def execLdI (nnn : Addr) (s : State) : Host.Outcome State Fault Refusal :=
  .next (advance (setIndex s (addrOperand nnn)))

/-- `ADD I, Vx`: modulo 65536, VF not written (R141). -/
def execAddI (x : Nibble) (s : State) : Host.Outcome State Fault Refusal :=
  .next (advance (setIndex s (s.i + byteOperand (getReg s x))))

/-- `LD F, Vx` (R142). -/
def execLdF (x : Nibble) (s : State) : Host.Outcome State Fault Refusal :=
  .next (advance (setIndex s (glyphAddress (getReg s x))))

/-- The bytes stored at I, I + 1, ..., and I advanced by `step` (R143 with 0, R144 with X + 1). -/
def storeAtIndex (bytes : List Byte) (step : Nat) (s : State) : Except Fault State :=
  match writeChecked s.mem (indexAddress s 0) bytes with
  | .ok m => .ok (advance (setIndex (setMem s m) (BitVec.ofNat 16 (indexAddress s step))))
  | .error f => .error f

/-- `LD B, Vx`: the three digits at I, I + 1, I + 2; I unchanged (R143). -/
def execLdB (x : Nibble) (s : State) : Host.Outcome State Fault Refusal :=
  orRaise s (storeAtIndex (bcdDigits (getReg s x)) 0 s)

/-- `LD [I], Vx`: V0 to V[X] stored at I, I advanced by X + 1 (R144). -/
def execLdMemVx (x : Nibble) (s : State) : Host.Outcome State Fault Refusal :=
  orRaise s (storeAtIndex (storedRegs s.v x) (rangeLength x) s)

/-- The bytes at I, I + 1, ... loaded into V0, V1, ..., and I advanced by their number. -/
def loadAtIndex (count : Nat) (s : State) : Except Fault State :=
  match readChecked s.mem (indexAddress s 0) count with
  | .ok bytes =>
    .ok (advance (setIndex (setRegs s (loadRegs s.v 0 bytes)) (BitVec.ofNat 16 (indexAddress s count))))
  | .error f => .error f

/-- `LD Vx, [I]`: V0 to V[X] loaded from I, I advanced by X + 1 (R145). -/
def execLdVxMem (x : Nibble) (s : State) : Host.Outcome State Fault Refusal :=
  orRaise s (loadAtIndex (rangeLength x) s)

end Sys2Proof.Machine
end

