-- ==== Sys2Proof/Machine/Keypad.lean ====
section
/-! DEFINITION. The keypad and timer instructions (45_keypad_timers.md R160 to R165). -/

namespace Sys2Proof.Machine

/-- A skip that happens when the key numbered V[x] has the wanted level in KEYS. -/
def skipOnKey (x : Nibble) (wanted : Bool) (s : State) : Except Fault State :=
  (keyOperand (getReg s x)).map (fun k => skipIf (keyDown s k == wanted) s)

/-- `SKP Vx` (R160). -/
def execSkp (x : Nibble) (s : State) : Host.Outcome State Fault Refusal := orRaise s (skipOnKey x true s)

/-- `SKNP Vx` (R161). -/
def execSknp (x : Nibble) (s : State) : Host.Outcome State Fault Refusal := orRaise s (skipOnKey x false s)

/-- The scan of keys 0 to 15 without an early exit: the highest key down, if any (R162). -/
def scanKeys (s : State) : Option Nat :=
  (List.range Config.keyCount).foldl (fun found i => if keyDown s i then some i else found) none

/-- `LD Vx, K`: the highest key down, or nothing at all while none is (R162). -/
def execLdVxK (x : Nibble) (s : State) : Host.Outcome State Fault Refusal :=
  match scanKeys s with
  | some k => .next (advance (setReg s x (BitVec.ofNat 8 k)))
  | none => .next s

/-- `LD Vx, DT`: DT before this Step's tick (R163). -/
def execLdVxDt (x : Nibble) (s : State) : Host.Outcome State Fault Refusal := .next (advance (setReg s x s.dt))

/-- `LD DT, Vx` (R164). -/
def execLdDtVx (x : Nibble) (s : State) : Host.Outcome State Fault Refusal :=
  .next (advance (setDelay s (getReg s x)))

/-- `LD ST, Vx` (R165). -/
def execLdStVx (x : Nibble) (s : State) : Host.Outcome State Fault Refusal :=
  .next (advance (setSound s (getReg s x)))

end Sys2Proof.Machine
end

