-- ==== Sys2Proof/Machine/Cycle.lean ====
section
/-! DEFINITION. The Step: fetch, decode, execute, timer tick, and its result (40_step_cycle.md R80 to R88). -/

namespace Sys2Proof.Machine

/-- The last phase: the tick, but not in a Step that has raised a halting fault (R85, R86). -/
def afterExecute (t : State) : State := if t.halt then t else tick t

/-- Phases 2 to 4 for a fetched word: a word that decodes to nothing is reported and skipped (R83). -/
def runWord (op : Word) (s : State) : Host.Outcome State Fault Refusal :=
  match decode op with
  | .error _ => .next (afterExecute (unknownOpcode s))
  | .ok i =>
    match exec i s with
    | .next t => .next (afterExecute t)
    | .fault f => .fault f
    | .refused r => .refused r

/-- One Step (R80): nothing at all while HALT = 1 (R81), else the four phases, a fetch fault taken before them (R82). -/
def cycle (s : State) : Host.Outcome State Fault Refusal :=
  if s.halt then .next s
  else
    match fetch s with
    | .error f => .next (raise f s)
    | .ok op => runWord op s

/-- The result of a Step (R87), an output and not state (R25). -/
inductive StepResult where
  /-- The instruction executed, a waiting FX0A included. -/
  | done
  /-- Decode selected nothing, or SYS. -/
  | unknownOpcode (op : Word)
  /-- A halting fault in this Step, or `Halted` (code 7) when HALT was already 1. -/
  | fault (cause : BitVec 3) (info : Word)
  deriving DecidableEq, Repr

/-- Whether the Step reports the word as UnknownOpcode: decode selected nothing, or SYS (R83, R100). -/
def reportsUnknown (op : Word) : Bool :=
  match decode op with
  | .error _ => true
  | .ok (.sys _) => true
  | .ok _ => false

/-- The result of the Step that starts in s (R87, R178): what the Step recorded, if it raised a fault. -/
def stepResult (s : State) : StepResult :=
  if s.halt then .fault 7 0
  else
    match fetch s with
    | .error f => .fault f.code f.info
    | .ok op =>
      if reportsUnknown op then .unknownOpcode op
      else
        match runWord op s with
        | .next t => if t.halt then .fault t.fcause t.finfo else .done
        | _ => .done

end Sys2Proof.Machine
end

