-- ==== Sys2Proof/Machine/Step.lean ====
section
/-! DEFINITION. The step the host runs, and the placing of one instruction where it is fetched. -/

namespace Sys2Proof.Machine

/-- One Step of the core (40_step_cycle.md R80). -/
def step (s : State) : Host.Outcome State Fault Refusal := cycle s

/-- The instruction whose bits are w, stored high byte first at PC and PC + 1 (R42), where `step` fetches. Nothing else
changes: in a running machine with PC at most 0xFFE the fetch needs nothing else. Assumption log 9. -/
def State.withFetchWord (s : State) (nbits w : Nat) : State := placeAtPc s (bytesOfWord (tableWord nbits w))

end Sys2Proof.Machine
end

