-- ==== Sys2Proof/Machine/Assembly.lean ====
section
/-! DEFINITION. The assembler notation of 30_encoding.md R65 and R69 as data: a mnemonic and its operands, destination first.
There are no pseudo-instructions (R70). Layout of text (spaces, commas, hexadecimal digits) is not modelled, log 25. -/

namespace Sys2Proof.Machine

/-- The mnemonics of R65. -/
inductive Mnemonic where
  | SYS | CLS | RET | JP | CALL | SE | SNE | LD | ADD | OR | AND | XOR | SUB | SHR | SUBN | SHL | RND | DRW | SKP | SKNP
  deriving DecidableEq, Repr

/-- The operand kinds of R69. -/
inductive AsmOperand where
  | v (x : Nibble)
  | addr (nnn : Addr)
  | byte (nn : Byte)
  | nibble (n : Nibble)
  | I | DT | ST | K | F | B | atI
  deriving DecidableEq, Repr

/-- An instruction in the notation of R65, its optional `Vy` written out. -/
def disassemble (i : Instr) : Mnemonic × List AsmOperand :=
  match i with
  | .sys nnn => (.SYS, [.addr nnn])
  | .cls => (.CLS, [])
  | .ret => (.RET, [])
  | .jp nnn => (.JP, [.addr nnn])
  | .call nnn => (.CALL, [.addr nnn])
  | .seImm x nn => (.SE, [.v x, .byte nn])
  | .sneImm x nn => (.SNE, [.v x, .byte nn])
  | .seReg x y => (.SE, [.v x, .v y])
  | .ldImm x nn => (.LD, [.v x, .byte nn])
  | .addImm x nn => (.ADD, [.v x, .byte nn])
  | .ldReg x y => (.LD, [.v x, .v y])
  | .orReg x y => (.OR, [.v x, .v y])
  | .andReg x y => (.AND, [.v x, .v y])
  | .xorReg x y => (.XOR, [.v x, .v y])
  | .addReg x y => (.ADD, [.v x, .v y])
  | .sub x y => (.SUB, [.v x, .v y])
  | .shr x y => (.SHR, [.v x, .v y])
  | .subn x y => (.SUBN, [.v x, .v y])
  | .shl x y => (.SHL, [.v x, .v y])
  | .sneReg x y => (.SNE, [.v x, .v y])
  | .ldI nnn => (.LD, [.I, .addr nnn])
  | .jpV0 nnn => (.JP, [.v 0, .addr nnn])
  | .rnd x nn => (.RND, [.v x, .byte nn])
  | .drw x y n => (.DRW, [.v x, .v y, .nibble n])
  | .skp x => (.SKP, [.v x])
  | .sknp x => (.SKNP, [.v x])
  | .ldVxDt x => (.LD, [.v x, .DT])
  | .ldVxK x => (.LD, [.v x, .K])
  | .ldDtVx x => (.LD, [.DT, .v x])
  | .ldStVx x => (.LD, [.ST, .v x])
  | .addI x => (.ADD, [.I, .v x])
  | .ldF x => (.LD, [.F, .v x])
  | .ldB x => (.LD, [.B, .v x])
  | .ldMemVx x => (.LD, [.atI, .v x])
  | .ldVxMem x => (.LD, [.v x, .atI])

/-- The instruction a line of assembly stands for. The `{, Vy}` of SHR and SHL is optional and assembles as 0 (R69); the two
addresses SYS does not have are refused (R67). -/
def assemble (m : Mnemonic) (operands : List AsmOperand) : Option Instr :=
  match m, operands with
  | .SYS, [.addr nnn] => if sysAddressOk nnn then some (.sys nnn) else none
  | .CLS, [] => some .cls
  | .RET, [] => some .ret
  | .JP, [.addr nnn] => some (.jp nnn)
  | .JP, [.v x, .addr nnn] => if x = 0 then some (.jpV0 nnn) else none
  | .CALL, [.addr nnn] => some (.call nnn)
  | .SE, [.v x, .byte nn] => some (.seImm x nn)
  | .SE, [.v x, .v y] => some (.seReg x y)
  | .SNE, [.v x, .byte nn] => some (.sneImm x nn)
  | .SNE, [.v x, .v y] => some (.sneReg x y)
  | .LD, [.v x, .byte nn] => some (.ldImm x nn)
  | .LD, [.v x, .v y] => some (.ldReg x y)
  | .LD, [.I, .addr nnn] => some (.ldI nnn)
  | .LD, [.v x, .DT] => some (.ldVxDt x)
  | .LD, [.v x, .K] => some (.ldVxK x)
  | .LD, [.DT, .v x] => some (.ldDtVx x)
  | .LD, [.ST, .v x] => some (.ldStVx x)
  | .LD, [.F, .v x] => some (.ldF x)
  | .LD, [.B, .v x] => some (.ldB x)
  | .LD, [.atI, .v x] => some (.ldMemVx x)
  | .LD, [.v x, .atI] => some (.ldVxMem x)
  | .ADD, [.v x, .byte nn] => some (.addImm x nn)
  | .ADD, [.v x, .v y] => some (.addReg x y)
  | .ADD, [.I, .v x] => some (.addI x)
  | .OR, [.v x, .v y] => some (.orReg x y)
  | .AND, [.v x, .v y] => some (.andReg x y)
  | .XOR, [.v x, .v y] => some (.xorReg x y)
  | .SUB, [.v x, .v y] => some (.sub x y)
  | .SHR, [.v x, .v y] => some (.shr x y)
  | .SHR, [.v x] => some (.shr x 0)
  | .SUBN, [.v x, .v y] => some (.subn x y)
  | .SHL, [.v x, .v y] => some (.shl x y)
  | .SHL, [.v x] => some (.shl x 0)
  | .RND, [.v x, .byte nn] => some (.rnd x nn)
  | .DRW, [.v x, .v y, .nibble n] => some (.drw x y n)
  | .SKP, [.v x] => some (.skp x)
  | .SKNP, [.v x] => some (.sknp x)
  | _, _ => none

end Sys2Proof.Machine
end

