-- ==== Sys2Proof/Machine/HostOps.lean ====
section
/-! DEFINITION. The host's operations and read accessors (00_scope.md R6, R7; 70_reset_and_hazards.md R200 to R204). -/

namespace Sys2Proof.Machine

/-- `Reset`: every element at its value of R30, whatever the state before (R200). The model's own counter goes on, so a draw
after a Reset is another free value than every draw before it (R88; log 1). -/
def hostReset (s : State) : State := { State.reset with draws := s.draws }

/-- Whether Load accepts an image: at most ROM_MAX bytes (R201). -/
abbrev romFits (bytes : List Byte) : Prop := bytes.length ≤ Config.romMax

/-- `Load(bytes)`: the image at 0x200 onward and nothing else; an image too large changes nothing (R201, R177). -/
def hostLoad (bytes : List Byte) (s : State) : State :=
  if romFits bytes then setMem s (Memory.writeRun s.mem Config.progBase bytes) else s

/-- `SetKeys(k)`: the snapshot stored verbatim, bit i for key i (R202, R7). -/
def hostSetKeys (k : BitVec 16) (s : State) : State := { s with keys := k }

/-- `ClearRedraw` (R203). -/
def hostClearRedraw (s : State) : State := { s with redraw := false }

/-- `ClearBeep` (R203). -/
def hostClearBeep (s : State) : State := { s with beep := false }

/-- The operations of R6 that change state, the core's Step among them. -/
inductive Operation where
  | reset
  | load (bytes : List Byte)
  | setKeys (k : BitVec 16)
  | clearRedraw
  | clearBeep
  | step
  deriving DecidableEq, Repr

/-- One atomic transition of the whole state (R6, R50). -/
def perform (o : Operation) (s : State) : Host.Outcome State Fault Refusal :=
  match o with
  | .reset => .next (hostReset s)
  | .load bytes => .next (hostLoad bytes s)
  | .setKeys k => .next (hostSetKeys k s)
  | .clearRedraw => .next (hostClearRedraw s)
  | .clearBeep => .next (hostClearBeep s)
  | .step => step s

/-- What an operation answers the host: Load `Ok` or `RomTooLarge(len)` (R201), a Step its result (R87). -/
inductive OperationResult where
  | ok
  | romTooLarge (length : Nat)
  | step (r : StepResult)
  deriving DecidableEq, Repr

/-- The answer of an operation issued in s. -/
def operationResult (o : Operation) (s : State) : OperationResult :=
  match o with
  | .load bytes => if romFits bytes then .ok else .romTooLarge bytes.length
  | .step => .step (stepResult s)
  | .reset | .setKeys _ | .clearRedraw | .clearBeep => .ok

/-- The read accessors: what the host can read between Steps, and nothing else (R204, R7). -/
structure Outputs where
  dispOut : Display
  pcOut : Word
  redraw : Bool
  beep : Bool
  halt : Bool
  fcause : BitVec 3
  finfo : Word
  unk : Bool
  deriving DecidableEq, Repr

/-- Reading has no side effect (R204). -/
def outputs (s : State) : Outputs where
  dispOut := s.disp
  pcOut := s.pc
  redraw := s.redraw
  beep := s.beep
  halt := s.halt
  fcause := s.fcause
  finfo := s.finfo
  unk := s.unk

end Sys2Proof.Machine
end

