-- ==== Sys2Proof/Safety.lean ====
section
/-! DEFINITION. The terms statements use: what a Step leaves unchanged, the recorded fault, the invariant, the idle state. -/

namespace Sys2Proof.Machine

/-- The elements of State (10_state.md R10 to R24), by name, and the model's own counter of draws. -/
inductive Element where
  | mem | v | i | pc | stack | sp | dt | st | disp | keys | redraw | beep | halt | fcause | finfo | unk | draws
  deriving DecidableEq, Repr

/-- The element has the same content in both states. Memory is compared through the read of every byte. -/
def Element.Same (e : Element) (s t : State) : Prop :=
  match e with
  | .mem => ∀ a, Memory.read t.mem a = Memory.read s.mem a
  | .v => ∀ x, getReg t x = getReg s x
  | .i => t.i = s.i
  | .pc => t.pc = s.pc
  | .stack => t.stack = s.stack
  | .sp => t.sp = s.sp
  | .dt => t.dt = s.dt
  | .st => t.st = s.st
  | .disp => t.disp = s.disp
  | .keys => t.keys = s.keys
  | .redraw => t.redraw = s.redraw
  | .beep => t.beep = s.beep
  | .halt => t.halt = s.halt
  | .fcause => t.fcause = s.fcause
  | .finfo => t.finfo = s.finfo
  | .unk => t.unk = s.unk
  | .draws => t.draws = s.draws

/-- Everything but the named elements is unchanged. -/
def KeepsAllBut (written : List Element) (s t : State) : Prop := ∀ e, e ∉ written → e.Same s t

/-- Every register but the named ones is unchanged. -/
def KeepsRegsBut (written : List Nibble) (s t : State) : Prop := ∀ x, x ∉ written → getReg t x = getReg s x

/-- Every byte of memory outside the `count` bytes at `base` is unchanged. -/
def KeepsBytesOutside (base count : Nat) (s t : State) : Prop :=
  ∀ a, a < base ∨ base + count ≤ a → Memory.read t.mem a = Memory.read s.mem a

/-- Fault entry with a cause code and an information word: HALT, FCAUSE and FINFO written, nothing else (R181). -/
def FaultTaken (code : BitVec 3) (info : Word) (s t : State) : Prop :=
  t.halt = true ∧ t.fcause = code ∧ t.finfo = info ∧ KeepsAllBut [.halt, .fcause, .finfo] s t

/-- The elements an instruction may write when it raises no fault, from the pseudocode of its rule; `draws` is the model's own
counter, moved by RND alone. -/
def writtenElements (i : Instr) : List Element :=
  match i with
  | .sys _ => [.unk, .pc]
  | .cls => [.disp, .redraw, .pc]
  | .ret => [.sp, .pc]
  | .jp _ | .jpV0 _ | .seImm _ _ | .sneImm _ _ | .seReg _ _ | .sneReg _ _ | .skp _ | .sknp _ => [.pc]
  | .call _ => [.stack, .sp, .pc]
  | .ldImm _ _ | .addImm _ _ | .ldReg _ _ | .orReg _ _ | .andReg _ _ | .xorReg _ _ | .addReg _ _ | .sub _ _ | .shr _ _
  | .subn _ _ | .shl _ _ | .ldVxDt _ | .ldVxK _ => [.v, .pc]
  | .rnd _ _ => [.v, .pc, .draws]
  | .ldI _ | .addI _ | .ldF _ => [.i, .pc]
  | .drw _ _ _ => [.v, .disp, .redraw, .pc]
  | .ldDtVx _ => [.dt, .pc]
  | .ldStVx _ => [.st, .pc]
  | .ldB _ => [.mem, .pc]
  | .ldMemVx _ => [.mem, .i, .pc]
  | .ldVxMem _ => [.v, .i, .pc]

/-- The six instructions that write VF as a flag (R12). -/
def WritesFlag (i : Instr) : Prop :=
  match i with
  | .addReg _ _ | .sub _ _ | .shr _ _ | .subn _ _ | .shl _ _ | .drw _ _ _ => True
  | _ => False

/-- The registers an instruction names as its destination: V[X], or V0 to V[X] for LD Vx, [I]. -/
def IsDestination (i : Instr) (r : Nibble) : Prop :=
  match i with
  | .ldImm x _ | .addImm x _ | .ldReg x _ | .orReg x _ | .andReg x _ | .xorReg x _ | .addReg x _ | .sub x _ | .shr x _
  | .subn x _ | .shl x _ | .rnd x _ | .ldVxDt x | .ldVxK x => r = x
  | .ldVxMem x => r.toNat ≤ x.toNat
  | _ => False

/-- PC after an instruction that raises no fault: the table of 40_step_cycle.md R84. -/
def pcAfter (i : Instr) (s : State) : Word :=
  match i with
  | .jp nnn | .call nnn => BitVec.ofNat 16 nnn.toNat
  | .jpV0 nnn => BitVec.ofNat 16 (nnn.toNat + (getReg s 0).toNat)
  | .ret => s.stack[s.sp.val - 1]'(by have := s.sp.isLt; omega) + 2
  | .seImm x nn => if getReg s x = nn then s.pc + 4 else s.pc + 2
  | .sneImm x nn => if getReg s x ≠ nn then s.pc + 4 else s.pc + 2
  | .seReg x y => if getReg s x = getReg s y then s.pc + 4 else s.pc + 2
  | .sneReg x y => if getReg s x ≠ getReg s y then s.pc + 4 else s.pc + 2
  | .skp x => if keyDown s (getReg s x).toNat then s.pc + 4 else s.pc + 2
  | .sknp x => if keyDown s (getReg s x).toNat then s.pc + 2 else s.pc + 4
  | .ldVxK _ => if s.keys = 0 then s.pc else s.pc + 2
  | _ => s.pc + 2

/-- The sprite of n rows at I has its bit set in row r and column c: bit 7 of a byte is the leftmost pixel (R152). -/
def SpriteSet (s : State) (n : Nibble) (r c : Nat) : Prop :=
  r < n.toNat ∧ c < 8 ∧ (Memory.read s.mem (s.i.toNat + r)).getLsbD (7 - c) = true

/-- The linear index of the pixel under row r and column c of a sprite drawn at V[X], V[Y] (R150). -/
def spriteIndex (s : State) (x y : Nibble) (r c : Nat) : Nat :=
  (getReg s x).toNat + c + 64 * ((getReg s y).toNat + r)

/-- The sprite bytes are all in memory, and every set bit has its pixel in the display: what a draw needs (R152). -/
def SpriteFits (s : State) (x y n : Nibble) : Prop :=
  (n.toNat = 0 ∨ s.i.toNat + n.toNat ≤ 4096) ∧ ∀ r c, SpriteSet s n r c → spriteIndex s x y r c ≤ 2047

/-- What FCAUSE and FINFO can hold, by the table of R170: nothing while HALT = 0, a halting fault's code and an information
word in that fault's range while HALT = 1. -/
def FaultStatusOk (s : State) : Prop :=
  if s.halt then
    (s.fcause = 2 ∧ s.finfo = 16) ∨ (s.fcause = 3 ∧ s.finfo = 0) ∨ (s.fcause = 4 ∧ 4096 ≤ s.finfo.toNat) ∨
      (s.fcause = 5 ∧ 2048 ≤ s.finfo.toNat ∧ s.finfo.toNat ≤ 17478) ∨
      (s.fcause = 6 ∧ 16 ≤ s.finfo.toNat ∧ s.finfo.toNat ≤ 255)
  else s.fcause = 0 ∧ s.finfo = 0

/-- The machine's invariant: memory in canonical form, and the fault status as R170 and R181 have it. -/
def MachineInv (s : State) : Prop := Memory.wf s.mem ∧ FaultStatusOk s

/-- `idle at a` (R210): running, PC at a, and `JP a` in the two bytes of memory there. -/
def IdleAt (a : Addr) (s : State) : Prop :=
  s.halt = false ∧ s.pc = a.setWidth 16 ∧ a.toNat + 1 < Config.memSize ∧
    Memory.read s.mem a.toNat = 0x10#8 ||| (a >>> 8).setWidth 8 ∧
    Memory.read s.mem (a.toNat + 1) = a.extractLsb' 0 8

end Sys2Proof.Machine
end

