-- ==== Sys2Proof/Certificates/Slice0/Obligations.lean ====
section
/-! DEFINITION. The statements for the provers. A rule R<n> is a rule of spec/; a result is stated over natural numbers or
single bits, as the spec writes it, and never through the model's own operation. `KeepsAllBut` lists what may change. -/

open Sys2Proof Sys2Proof.Machine

/-! ### Reset, the invariant, the host's operations -/

/-- R30, R200: the state after Reset, from any state before it; `draws`, the model's own counter, goes on (log 1). The font's
bytes are general knowledge (log 3), its place is conflict C1 (log 22), the fault status is the spec's decision D26. -/
def Obligations.ResetLeavesTheTabledState : Prop :=
  (∀ s, perform .reset s = .next { State.reset with draws := s.draws }) ∧
    (List.range 80).map (Memory.read State.reset.mem) =
        [0xF0, 0x90, 0x90, 0x90, 0xF0, 0x20, 0x60, 0x20, 0x20, 0x70] ++
        [0xF0, 0x10, 0xF0, 0x80, 0xF0, 0xF0, 0x10, 0xF0, 0x10, 0xF0] ++
        [0x90, 0x90, 0xF0, 0x10, 0x10, 0xF0, 0x80, 0xF0, 0x10, 0xF0] ++
        [0xF0, 0x80, 0xF0, 0x90, 0xF0, 0xF0, 0x10, 0x20, 0x40, 0x40] ++
        [0xF0, 0x90, 0xF0, 0x90, 0xF0, 0xF0, 0x90, 0xF0, 0x10, 0xF0] ++
        [0xF0, 0x90, 0xF0, 0x90, 0x90, 0xE0, 0x90, 0xE0, 0x90, 0xE0] ++
        [0xF0, 0x80, 0x80, 0x80, 0xF0, 0xE0, 0x90, 0x90, 0x90, 0xE0] ++
        [0xF0, 0x80, 0xF0, 0x80, 0xF0, 0xF0, 0x80, 0xF0, 0x80, 0x80] ∧
    (∀ a, 80 ≤ a → a < 4096 → Memory.read State.reset.mem a = 0) ∧
    (∀ x, getReg State.reset x = 0) ∧
    State.reset.i = 0 ∧ State.reset.pc = 0x0200 ∧
    (∀ k, (h : k < 16) → State.reset.stack[k] = 0) ∧ State.reset.sp = 0 ∧
    State.reset.dt = 0 ∧ State.reset.st = 0 ∧
    (∀ k, k < 2048 → pixel State.reset.disp k = false) ∧ (∀ k, k < 16 → keyDown State.reset k = false) ∧
    State.reset.redraw = false ∧ State.reset.beep = false ∧ State.reset.halt = false ∧ State.reset.fcause = 0 ∧
    State.reset.finfo = 0 ∧ State.reset.unk = false

/-- The invariant holds after Reset. -/
def Obligations.ResetMeetsTheInvariant : Prop := MachineInv State.reset

/-- Every Step keeps memory in canonical form and the fault status as the table of R170 allows it. -/
def Obligations.StepKeepsTheInvariant : Prop := ∀ s t, MachineInv s → step s = .next t → MachineInv t

/-- Every operation of R6 keeps the invariant. -/
def Obligations.HostOperationsKeepTheInvariant : Prop := ∀ o s t, MachineInv s → perform o s = .next t → MachineInv t

/-- R177, R201: Load copies an image of at most 3584 bytes to 0x200 and changes nothing else; a longer one changes nothing. -/
def Obligations.LoadCopiesOrRefusesTheImage : Prop :=
  (∀ bytes s, Memory.wf s.mem → bytes.length ≤ 3584 →
    operationResult (.load bytes) s = .ok ∧
      ∃ t, perform (.load bytes) s = .next t ∧
        (∀ k, (h : k < bytes.length) → Memory.read t.mem (0x200 + k) = bytes[k]) ∧
        KeepsBytesOutside 0x200 bytes.length s t ∧ KeepsAllBut [.mem] s t) ∧
    ∀ bytes s, 3584 < bytes.length →
      operationResult (.load bytes) s = .romTooLarge bytes.length ∧ perform (.load bytes) s = .next s

/-- R205 (its last sentence is the spec's own inference from R67): after Reset and Load the next fetch is the first two bytes
of the image; before any Load a Step runs SYS 0x000. -/
def Obligations.BootRunsTheLoadedImage : Prop :=
  (∀ s bytes, (h : 2 ≤ bytes.length) → bytes.length ≤ 3584 →
    ∃ t u op, perform .reset s = .next t ∧ perform (.load bytes) t = .next u ∧ u.pc = 0x0200 ∧ u.halt = false ∧
      fetch u = .ok op ∧ op.toNat = bytes[0].toNat * 256 + bytes[1].toNat) ∧
    stepResult State.reset = .unknownOpcode 0x0000 ∧
      ∃ t, step State.reset = .next t ∧ t.pc = 0x0202 ∧ t.unk = true ∧ KeepsAllBut [.pc, .unk] State.reset t

/-- R202, R20: SetKeys stores the snapshot and changes nothing else; no other operation but Reset writes KEYS, so two Steps
with no SetKeys between them see the same keys (the spec's decision D21). -/
def Obligations.SetKeysStoresTheSnapshot : Prop :=
  (∀ k s, ∃ t, perform (.setKeys k) s = .next t ∧ (∀ j, j < 16 → keyDown t j = k.getLsbD j) ∧ KeepsAllBut [.keys] s t) ∧
    ∀ o s t, perform o s = .next t → o ≠ .reset → (∀ k, o ≠ .setKeys k) → t.keys = s.keys

/-- R203: each clear clears its flag and nothing else; no other operation but Reset clears REDRAW or BEEP. -/
def Obligations.RedrawAndBeepAreClearedByTheHost : Prop :=
  (∀ s, ∃ t, perform .clearRedraw s = .next t ∧ t.redraw = false ∧ KeepsAllBut [.redraw] s t) ∧
    (∀ s, ∃ t, perform .clearBeep s = .next t ∧ t.beep = false ∧ KeepsAllBut [.beep] s t) ∧
    ∀ o s t, perform o s = .next t → o ≠ .reset →
      (o ≠ .clearRedraw → s.redraw = true → t.redraw = true) ∧ (o ≠ .clearBeep → s.beep = true → t.beep = true)

/-- R24 (the spec's decision D11): a Step that reports UnknownOpcode sets UNK, and nothing but Reset clears it. -/
def Obligations.UnkIsSticky : Prop :=
  (∀ s t op, stepResult s = .unknownOpcode op → step s = .next t → t.unk = true) ∧
    (∀ o s t, perform o s = .next t → o ≠ .reset → s.unk = true → t.unk = true) ∧
    ∀ s t, perform .reset s = .next t → t.unk = false

/-! ### Encoding -/

/-- Decoding the bytes of an encoded instruction gives it back, whatever bytes follow. -/
def Obligations.DecodeOfEncodeIsTheInstruction : Prop :=
  ∀ i rest, WellFormed i = true → decodeBytes (bytesOfWord (encode i) ++ rest) = some (.ok i, rest)

/-- A word that decodes is the word of the well-formed instruction it decodes to: strict decode, no bit ignored. -/
def Obligations.EncodeOfDecodeIsTheWord : Prop :=
  ∀ w i, decode w = .ok i → WellFormed i = true ∧ encode i = w

/-- R66, resting on strict decode (the spec's decision D5) and on the general-knowledge patterns of R65 (log 6): the words
that match no row are exactly the tabled ones. -/
def Obligations.UnknownWordsAreTheTabledOnes : Prop :=
  ∀ w : Word, (∃ u, decode w = .error u) ↔
    (w.toNat / 4096 = 5 ∧ w.toNat % 16 ≠ 0) ∨
      (w.toNat / 4096 = 8 ∧ w.toNat % 16 ∈ [8, 9, 0xA, 0xB, 0xC, 0xD, 0xF]) ∨
      (w.toNat / 4096 = 9 ∧ w.toNat % 16 ≠ 0) ∨
      (w.toNat / 4096 = 0xE ∧ w.toNat % 256 ∉ [0x9E, 0xA1]) ∨
      (w.toNat / 4096 = 0xF ∧ w.toNat % 256 ∉ [0x07, 0x0A, 0x15, 0x18, 0x1E, 0x29, 0x33, 0x55, 0x65])

/-- Words written out from R65, at least one of each family; most patterns are general knowledge (log 6). -/
def Obligations.SampleWordsDecode : Prop :=
  decodeTableWord 16 0x0123 = some (.sys 0x123) ∧ decodeTableWord 16 0x00E0 = some .cls ∧
    decodeTableWord 16 0x1234 = some (.jp 0x234) ∧ decodeTableWord 16 0x2300 = some (.call 0x300) ∧
    decodeTableWord 16 0x3342 = some (.seImm 3 0x42) ∧ decodeTableWord 16 0x8AB4 = some (.addReg 0xA 0xB) ∧
    decodeTableWord 16 0x8F1E = some (.shl 0xF 1) ∧ decodeTableWord 16 0xA2F0 = some (.ldI 0x2F0) ∧
    decodeTableWord 16 0xD125 = some (.drw 1 2 5) ∧ decodeTableWord 16 0xE29E = some (.skp 2) ∧
    decodeTableWord 16 0xF20A = some (.ldVxK 2) ∧ decodeTableWord 16 0xF365 = some (.ldVxMem 3) ∧
    decodeTableWord 16 0x8008 = none ∧ decodeTableWord 16 0x9AB1 = none

/-- R69 (the notation is general knowledge, the spec's decision D28): an instruction written in the assembler's notation
assembles to itself. -/
def Obligations.AssembleOfDisassembleIsTheInstruction : Prop :=
  ∀ i, WellFormed i = true → assemble (disassemble i).1 (disassemble i).2 = some i

/-! ### The Step -/

/-- R82, R42; the fault's code, and that nothing else changes, are the spec's decisions D10 and D11 (R170, R181; logs 2, 12):
the fetch is the big-endian word at PC, and a fetch that leaves memory is the fault of its lowest address above 4095. -/
def Obligations.FetchIsBigEndianAndBounded : Prop :=
  (∀ s, s.pc.toNat + 1 ≤ 4095 → ∃ op, fetch s = .ok op ∧
    op.toNat = (Memory.read s.mem s.pc.toNat).toNat * 256 + (Memory.read s.mem (s.pc.toNat + 1)).toNat) ∧
    (∀ s, s.halt = false → s.pc = 0x0FFF → stepResult s = .fault 4 0x1000 ∧
      ∃ t, step s = .next t ∧ FaultTaken 4 0x1000 s t) ∧
    ∀ s, s.halt = false → 0x1000 ≤ s.pc.toNat → stepResult s = .fault 4 s.pc ∧
      ∃ t, step s = .next t ∧ FaultTaken 4 s.pc s t

/-- R80: a Step of a running machine is the execute phase of the instruction at PC, and then the tick unless that phase took a
fault. -/
def Obligations.StepRunsTheDecodedInstruction : Prop :=
  ∀ s i, s.halt = false → s.pc.toNat + 1 ≤ 4095 →
    decode (wordOfBytes (Memory.read s.mem s.pc.toNat) (Memory.read s.mem (s.pc.toNat + 1))) = .ok i →
    step s =
      match exec i s with
      | .next t => .next (if t.halt then t else tick t)
      | .fault f => .fault f
      | .refused r => .refused r

/-- R83, R171; SYS is the spec's decision D5 (log 6), UNK its decision D11: a word that selects nothing, or SYS, is reported,
sets UNK, advances PC by 2 and ticks. -/
def Obligations.UnknownWordIsReportedAndSkipped : Prop :=
  ∀ s op, s.halt = false → fetch s = .ok op →
    ((∃ u, decode op = .error u) ∨ ∃ nnn, decode op = .ok (.sys nnn)) →
    stepResult s = .unknownOpcode op ∧
      ∃ t, step s = .next t ∧ t.unk = true ∧ t.pc.toNat = (s.pc.toNat + 2) % 65536 ∧
        t.dt.toNat = s.dt.toNat - 1 ∧ t.st.toNat = s.st.toNat - 1 ∧ t.beep = (s.beep || s.st == 1) ∧
        KeepsAllBut [.unk, .pc, .dt, .st, .beep] s t

/-- R81, R178 (the spec's decision D29, log 12): a halted machine's Step changes nothing and answers Halted; no operation but
Reset ends it. -/
def Obligations.HaltedMachineStaysHalted : Prop :=
  ∀ s, s.halt = true →
    step s = .next s ∧ stepResult s = .fault 7 0 ∧
      ∀ o t, o ≠ .reset → perform o s = .next t → t.halt = true ∧ t.fcause = s.fcause ∧ t.finfo = s.finfo

/-- R85: the tick, and that it ends every Step that takes no fault, after the execute phase of the fetched word. -/
def Obligations.TickEndsEveryFaultFreeStep : Prop :=
  (∀ s, (tick s).dt.toNat = s.dt.toNat - 1 ∧ (tick s).st.toNat = s.st.toNat - 1 ∧
    ((tick s).beep = true ↔ s.beep = true ∨ s.st = 1) ∧ KeepsAllBut [.dt, .st, .beep] s (tick s)) ∧
    ∀ s u, s.halt = false → step s = .next u → u.halt = false →
      ∃ op t, fetch s = .ok op ∧ u = tick t ∧
        (((∃ e, decode op = .error e) ∧ t = unknownOpcode s) ∨ ∃ i, decode op = .ok i ∧ exec i s = .next t)

/-- R86, R181 (the spec's decision D10, log 12): a Step that raises a halting fault writes HALT, FCAUSE and FINFO, nothing
else, and answers them. -/
def Obligations.HaltingFaultsArePrecise : Prop :=
  ∀ s t, s.halt = false → step s = .next t → t.halt = true →
    FaultTaken t.fcause t.finfo s t ∧ stepResult s = .fault t.fcause t.finfo

/-- R87 (the encoding of cause and info is the spec's decision D11): which result a Step has, for every state. -/
def Obligations.StepResultSaysWhatHappened : Prop :=
  ∀ s,
    (stepResult s = .done ↔ s.halt = false ∧ ∃ op i t, fetch s = .ok op ∧ decode op = .ok i ∧ (∀ nnn, i ≠ .sys nnn) ∧
      step s = .next t ∧ t.halt = false) ∧
    (∀ op, stepResult s = .unknownOpcode op ↔ s.halt = false ∧ fetch s = .ok op ∧
      ((∃ u, decode op = .error u) ∨ ∃ nnn, decode op = .ok (.sys nnn))) ∧
    ∀ c w, stepResult s = .fault c w ↔
      (s.halt = true ∧ c = 7 ∧ w = 0) ∨ (s.halt = false ∧ ∃ t, step s = .next t ∧ FaultTaken c w s t)

/-- That a fault and a halted Step answer a next state is the model's DESIGN CHOICE, log 2. Every Step, from every state, ends
in a next state: no fault and no refusal stops the model. -/
def Obligations.EveryStepHasANextState : Prop := ∀ s, ∃ t, step s = .next t

/-- R88: the draw reaches no instruction but RND. `draws` is the model's own counter of draws (log 1). -/
def Obligations.OnlyRndSeesTheDraw : Prop :=
  ∀ i s t n, (∀ x nn, i ≠ .rnd x nn) → exec i s = .next t →
    exec i { s with draws := n } = .next { t with draws := n }

/-- R84: PC after every instruction that raises no fault, and that a fault leaves PC. PC is never masked (the spec's decision
D9, log 11). -/
def Obligations.PcFollowsTheTable : Prop :=
  ∀ i s t, s.halt = false → exec i s = .next t → t.pc = if t.halt then s.pc else pcAfter i s

/-- Whole machine: an instruction writes the elements its rule names, or takes a fault that writes only the fault status. -/
def Obligations.InstructionsWriteOnlyTheirElements : Prop :=
  ∀ i s t, exec i s = .next t → KeepsAllBut (writtenElements i) s t ∨ FaultTaken t.fcause t.finfo s t

/-- R12 (its last sentence is the spec's decision D17, log 15): no register changes but a named destination, and VF by the six
flag-writing instructions, which leave 0 or 1. -/
def Obligations.VfIsWrittenByTheSixAlone : Prop :=
  (∀ i s t r, exec i s = .next t → ¬ IsDestination i r → ¬ (WritesFlag i ∧ r = vf) → getReg t r = getReg s r) ∧
    ∀ i s t, s.halt = false → exec i s = .next t → t.halt = false → WritesFlag i → getReg t vf = 0 ∨ getReg t vf = 1

/-- R210 (the spec's own inference from R102 and R85): an idle machine stays idle and only its timers and BEEP move. -/
def Obligations.IdleMachineStaysIdle : Prop :=
  ∀ a s, IdleAt a s → step s = .next (tick s) ∧ IdleAt a (tick s) ∧ stepResult s = .done

/-- R53: the two bytes stored just past an executing LD [I], Vx are the next instruction word. -/
def Obligations.StoresAreSeenByTheNextFetch : Prop :=
  ∀ s x, Memory.wf s.mem → s.i.toNat = s.pc.toNat + 2 → 1 ≤ x.toNat → s.i.toNat + x.toNat ≤ 4095 →
    ∃ t op, exec (.ldMemVx x) s = .next t ∧ fetch t = .ok op ∧
      op.toNat = (getReg s 0).toNat * 256 + (getReg s 1).toNat

/-! ### Control flow -/

/-- R100: SYS acts as an unknown opcode (the spec's decision D5, log 6). -/
def Obligations.SysReportsUnknownOpcode : Prop :=
  (∀ nnn, nnn ≠ 0x0E0#12 → nnn ≠ 0x0EE#12 → decode (wordNNN 0x0 nnn) = .ok (.sys nnn)) ∧
    (∀ nnn s, ∃ t, exec (.sys nnn) s = .next t ∧ t.unk = true ∧ t.pc = s.pc + 2 ∧ KeepsAllBut [.unk, .pc] s t) ∧
    ∀ nnn s, nnn ≠ 0x0E0#12 → nnn ≠ 0x0EE#12 → s.halt = false → fetch s = .ok (wordNNN 0x0 nnn) →
      stepResult s = .unknownOpcode (wordNNN 0x0 nnn)

/-- R101, R173. That the popped entry stays in STACK is the spec's decision D30, log 26. -/
def Obligations.RetPopsTheCallAddress : Prop :=
  decode 0x00EE = .ok .ret ∧
    (∀ s n, (h : n < 16) → s.sp.val = n + 1 →
      ∃ t, exec .ret s = .next t ∧ t.sp.val = n ∧ t.pc.toNat = (s.stack[n].toNat + 2) % 65536 ∧
        KeepsAllBut [.sp, .pc] s t) ∧
    ∀ s, s.sp = 0 → ∃ t, exec .ret s = .next t ∧ FaultTaken 3 0 s t

/-- R102. -/
def Obligations.JumpReplacesPc : Prop :=
  (∀ nnn, decode (wordNNN 0x1 nnn) = .ok (.jp nnn)) ∧
    ∀ nnn s, ∃ t, exec (.jp nnn) s = .next t ∧ t.pc.toNat = nnn.toNat ∧ KeepsAllBut [.pc] s t

/-- R108, which the spec gives from general knowledge; the sum is not masked (its decision D9). Logs 6, 11. -/
def Obligations.JumpByV0AddsWithoutMask : Prop :=
  (∀ nnn, decode (wordNNN 0xB nnn) = .ok (.jpV0 nnn)) ∧
    ∀ nnn s, ∃ t, exec (.jpV0 nnn) s = .next t ∧ t.pc.toNat = nnn.toNat + (getReg s 0).toNat ∧ KeepsAllBut [.pc] s t

/-- R103, R172. That the pushed value is PC, not PC + 2, is the spec's inference from its call and return example, log 26. -/
def Obligations.CallPushesItsOwnAddress : Prop :=
  (∀ nnn, decode (wordNNN 0x2 nnn) = .ok (.call nnn)) ∧
    (∀ nnn s, (h : s.sp.val < 16) →
      ∃ t, exec (.call nnn) s = .next t ∧ t.stack[s.sp.val] = s.pc ∧
        (∀ k, (hk : k < 16) → k ≠ s.sp.val → t.stack[k] = s.stack[k]) ∧ t.sp.val = s.sp.val + 1 ∧
        t.pc.toNat = nnn.toNat ∧ KeepsAllBut [.stack, .sp, .pc] s t) ∧
    ∀ nnn s, s.sp.val = 16 → ∃ t, exec (.call nnn) s = .next t ∧ FaultTaken 2 16 s t

/-- A RET right after a CALL continues two bytes past the CALL with the stack as deep as before. -/
def Obligations.RetUndoesCall : Prop :=
  ∀ nnn s, s.sp.val < 16 →
    ∃ t u, exec (.call nnn) s = .next t ∧ exec .ret t = .next u ∧ u.pc = s.pc + 2 ∧ u.sp = s.sp ∧
      KeepsAllBut [.stack, .pc] s u

/-- R104 to R107, which the spec gives from general knowledge (log 6). -/
def Obligations.SkipsTestTheirCondition : Prop :=
  (∀ x nn, decode (wordXNN 0x3 x nn) = .ok (.seImm x nn)) ∧ (∀ x nn, decode (wordXNN 0x4 x nn) = .ok (.sneImm x nn)) ∧
    (∀ x y, decode (wordXYN 0x5 x y 0) = .ok (.seReg x y)) ∧ (∀ x y, decode (wordXYN 0x9 x y 0) = .ok (.sneReg x y)) ∧
    (∀ x nn s, ∃ t, exec (.seImm x nn) s = .next t ∧
      t.pc = (if (getReg s x).toNat = nn.toNat then s.pc + 4 else s.pc + 2) ∧ KeepsAllBut [.pc] s t) ∧
    (∀ x nn s, ∃ t, exec (.sneImm x nn) s = .next t ∧
      t.pc = (if (getReg s x).toNat = nn.toNat then s.pc + 2 else s.pc + 4) ∧ KeepsAllBut [.pc] s t) ∧
    (∀ x y s, ∃ t, exec (.seReg x y) s = .next t ∧
      t.pc = (if (getReg s x).toNat = (getReg s y).toNat then s.pc + 4 else s.pc + 2) ∧ KeepsAllBut [.pc] s t) ∧
    ∀ x y s, ∃ t, exec (.sneReg x y) s = .next t ∧
      t.pc = (if (getReg s x).toNat = (getReg s y).toNat then s.pc + 2 else s.pc + 4) ∧ KeepsAllBut [.pc] s t

/-! ### Arithmetic and logic -/

/-- R120, R121: no flag. General knowledge (log 6); that ADD writes no flag is the spec's decision D17, log 15. -/
def Obligations.ImmediateLoadAndAdd : Prop :=
  (∀ x nn, decode (wordXNN 0x6 x nn) = .ok (.ldImm x nn)) ∧ (∀ x nn, decode (wordXNN 0x7 x nn) = .ok (.addImm x nn)) ∧
    (∀ x nn s, ∃ t, exec (.ldImm x nn) s = .next t ∧ getReg t x = nn ∧ t.pc = s.pc + 2 ∧ KeepsRegsBut [x] s t ∧
      KeepsAllBut [.v, .pc] s t) ∧
    ∀ x nn s, ∃ t, exec (.addImm x nn) s = .next t ∧ (getReg t x).toNat = ((getReg s x).toNat + nn.toNat) % 256 ∧
      t.pc = s.pc + 2 ∧ KeepsRegsBut [x] s t ∧ KeepsAllBut [.v, .pc] s t

/-- R122 to R125: moves and bitwise operations. General knowledge (log 6); no flag is the spec's decision D17, log 15. -/
def Obligations.MoveAndBitwise : Prop :=
  (∀ x y, decode (wordXYN 0x8 x y 0) = .ok (.ldReg x y)) ∧ (∀ x y, decode (wordXYN 0x8 x y 1) = .ok (.orReg x y)) ∧
    (∀ x y, decode (wordXYN 0x8 x y 2) = .ok (.andReg x y)) ∧ (∀ x y, decode (wordXYN 0x8 x y 3) = .ok (.xorReg x y)) ∧
    (∀ x y s, ∃ t, exec (.ldReg x y) s = .next t ∧ getReg t x = getReg s y ∧ t.pc = s.pc + 2 ∧ KeepsRegsBut [x] s t ∧
      KeepsAllBut [.v, .pc] s t) ∧
    (∀ x y s, ∃ t, exec (.orReg x y) s = .next t ∧
      (∀ k, (getReg t x).getLsbD k = ((getReg s x).getLsbD k || (getReg s y).getLsbD k)) ∧ t.pc = s.pc + 2 ∧
      KeepsRegsBut [x] s t ∧ KeepsAllBut [.v, .pc] s t) ∧
    (∀ x y s, ∃ t, exec (.andReg x y) s = .next t ∧
      (∀ k, (getReg t x).getLsbD k = ((getReg s x).getLsbD k && (getReg s y).getLsbD k)) ∧ t.pc = s.pc + 2 ∧
      KeepsRegsBut [x] s t ∧ KeepsAllBut [.v, .pc] s t) ∧
    ∀ x y s, ∃ t, exec (.xorReg x y) s = .next t ∧
      (∀ k, (getReg t x).getLsbD k = ((getReg s x).getLsbD k != (getReg s y).getLsbD k)) ∧ t.pc = s.pc + 2 ∧
      KeepsRegsBut [x] s t ∧ KeepsAllBut [.v, .pc] s t

/-- R126; with X = F the flag remains by R132, the spec's decision D15 (log 4): the sum, and the carry in VF also when X is F.
-/
def Obligations.AddRegistersWithCarry : Prop :=
  (∀ x y, decode (wordXYN 0x8 x y 4) = .ok (.addReg x y)) ∧
    ∀ x y s, ∃ t, exec (.addReg x y) s = .next t ∧
      (x ≠ vf → (getReg t x).toNat = ((getReg s x).toNat + (getReg s y).toNat) % 256) ∧
      (getReg t vf).toNat = (if (getReg s y).toNat > 255 - (getReg s x).toNat then 1 else 0) ∧
      t.pc = s.pc + 2 ∧ KeepsRegsBut [x, vf] s t ∧ KeepsAllBut [.v, .pc] s t

/-- R127, R129: the difference into V[X], and 1 in VF when there is no borrow, also when X is F (the spec's decision D15, log
4). The patterns, and SUBN's destination, are general knowledge (log 6). -/
def Obligations.SubtractWithNotBorrow : Prop :=
  (∀ x y, decode (wordXYN 0x8 x y 5) = .ok (.sub x y)) ∧ (∀ x y, decode (wordXYN 0x8 x y 7) = .ok (.subn x y)) ∧
    (∀ x y s, ∃ t, exec (.sub x y) s = .next t ∧
      (x ≠ vf → (getReg t x).toNat = ((getReg s x).toNat + 256 - (getReg s y).toNat) % 256) ∧
      (getReg t vf).toNat = (if (getReg s x).toNat ≥ (getReg s y).toNat then 1 else 0) ∧
      t.pc = s.pc + 2 ∧ KeepsRegsBut [x, vf] s t ∧ KeepsAllBut [.v, .pc] s t) ∧
    ∀ x y s, ∃ t, exec (.subn x y) s = .next t ∧
      (x ≠ vf → (getReg t x).toNat = ((getReg s y).toNat + 256 - (getReg s x).toNat) % 256) ∧
      (getReg t vf).toNat = (if (getReg s x).toNat ≤ (getReg s y).toNat then 1 else 0) ∧
      t.pc = s.pc + 2 ∧ KeepsRegsBut [x, vf] s t ∧ KeepsAllBut [.v, .pc] s t

/-- R128, R130: V[X] shifted by one, the bit shifted out in VF, also when X is F (the spec's decision D15, log 4); V[Y] plays
no part (its decision D16, log 14). -/
def Obligations.ShiftsMoveOneBitOut : Prop :=
  (∀ x y, decode (wordXYN 0x8 x y 6) = .ok (.shr x y)) ∧ (∀ x y, decode (wordXYN 0x8 x y 0xE) = .ok (.shl x y)) ∧
    (∀ x y s, ∃ t, exec (.shr x y) s = .next t ∧ (x ≠ vf → (getReg t x).toNat = (getReg s x).toNat / 2) ∧
      (getReg t vf).toNat = (getReg s x).toNat % 2 ∧ t.pc = s.pc + 2 ∧ KeepsRegsBut [x, vf] s t ∧
      KeepsAllBut [.v, .pc] s t) ∧
    ∀ x y s, ∃ t, exec (.shl x y) s = .next t ∧ (x ≠ vf → (getReg t x).toNat = (getReg s x).toNat * 2 % 256) ∧
      (getReg t vf).toNat = (getReg s x).toNat / 128 ∧ t.pc = s.pc + 2 ∧ KeepsRegsBut [x, vf] s t ∧
      KeepsAllBut [.v, .pc] s t

/-- R131: a drawn byte under the mask; true of every draw; the draw is consumed, so the next RND draws another free byte
(R88). `draws` is the model's own counter of draws (log 1); the pattern is general knowledge (log 6). -/
def Obligations.RndMasksTheDraw : Prop :=
  (∀ x nn, decode (wordXNN 0xC x nn) = .ok (.rnd x nn)) ∧
    ∀ x nn s, ∃ t, exec (.rnd x nn) s = .next t ∧
      (∀ k, (getReg t x).getLsbD k = ((drawnByte s).getLsbD k && nn.getLsbD k)) ∧ t.draws = s.draws + 1 ∧ t.pc = s.pc + 2 ∧
      KeepsRegsBut [x] s t ∧ KeepsAllBut [.v, .pc, .draws] s t

/-- 95_test_vectors.md 2.3: result and flag together lose nothing of the exact sum, difference or shift. -/
def Obligations.ResultAndFlagKeepTheExactValue : Prop :=
  ∀ (x y : Nibble) (s t : State), x ≠ vf →
    (exec (.addReg x y) s = .next t →
      256 * (getReg t vf).toNat + (getReg t x).toNat = (getReg s x).toNat + (getReg s y).toNat) ∧
    (exec (.sub x y) s = .next t →
      (getReg s x).toNat + 256 * (1 - (getReg t vf).toNat) = (getReg s y).toNat + (getReg t x).toNat) ∧
    (exec (.subn x y) s = .next t →
      (getReg s y).toNat + 256 * (1 - (getReg t vf).toNat) = (getReg s x).toNat + (getReg t x).toNat) ∧
    (exec (.shr x y) s = .next t → 2 * (getReg t x).toNat + (getReg t vf).toNat = (getReg s x).toNat) ∧
    (exec (.shl x y) s = .next t → 256 * (getReg t vf).toNat + (getReg t x).toNat = 2 * (getReg s x).toNat)

/-! ### Index register and memory -/

/-- R140, R141, R142, from general knowledge (log 6). I is never masked (the spec's decision D8, log 11), ADD I writes no flag
(D17, log 15), the glyph number is not masked (D19, log 16) and FONT_BASE is 0 (C1, log 22). -/
def Obligations.IndexLoadsAndSums : Prop :=
  (∀ nnn, decode (wordNNN 0xA nnn) = .ok (.ldI nnn)) ∧ (∀ x, decode (wordXNN 0xF x 0x1E) = .ok (.addI x)) ∧
    (∀ x, decode (wordXNN 0xF x 0x29) = .ok (.ldF x)) ∧
    (∀ nnn s, ∃ t, exec (.ldI nnn) s = .next t ∧ t.i.toNat = nnn.toNat ∧ t.pc = s.pc + 2 ∧ KeepsAllBut [.i, .pc] s t) ∧
    (∀ x s, ∃ t, exec (.addI x) s = .next t ∧ t.i.toNat = (s.i.toNat + (getReg s x).toNat) % 65536 ∧ t.pc = s.pc + 2 ∧
      KeepsAllBut [.i, .pc] s t) ∧
    ∀ x s, ∃ t, exec (.ldF x) s = .next t ∧ t.i.toNat = 0x000 + 5 * (getReg s x).toNat ∧ t.pc = s.pc + 2 ∧
      KeepsAllBut [.i, .pc] s t

/-- R143: the three digits at I, I + 1, I + 2, or the fault with nothing stored. The pattern is general knowledge (log 6). -/
def Obligations.BcdStoresThreeDigits : Prop :=
  (∀ x, decode (wordXNN 0xF x 0x33) = .ok (.ldB x)) ∧
    (∀ x s, Memory.wf s.mem → s.i.toNat + 2 ≤ 4095 → ∃ t, exec (.ldB x) s = .next t ∧
      (Memory.read t.mem s.i.toNat).toNat = (getReg s x).toNat / 100 ∧
      (Memory.read t.mem (s.i.toNat + 1)).toNat = (getReg s x).toNat / 10 % 10 ∧
      (Memory.read t.mem (s.i.toNat + 2)).toNat = (getReg s x).toNat % 10 ∧
      KeepsBytesOutside s.i.toNat 3 s t ∧ t.pc = s.pc + 2 ∧ KeepsAllBut [.mem, .pc] s t) ∧
    ∀ x s, 4095 < s.i.toNat + 2 → ∃ t, exec (.ldB x) s = .next t ∧
      FaultTaken 4 (BitVec.ofNat 16 (max s.i.toNat 4096)) s t

/-- R144; the fault's code, and that nothing else changes, are the spec's decisions D10 and D11 (R86, R170, R181; logs 2, 12):
V0 to V[X] stored at I, I advanced by X + 1, or the fault with nothing stored. -/
def Obligations.BlockStoreCopiesRegisters : Prop :=
  (∀ x, decode (wordXNN 0xF x 0x55) = .ok (.ldMemVx x)) ∧
    (∀ x s, Memory.wf s.mem → s.i.toNat + x.toNat ≤ 4095 → ∃ t, exec (.ldMemVx x) s = .next t ∧
      (∀ k : Nibble, k.toNat ≤ x.toNat → Memory.read t.mem (s.i.toNat + k.toNat) = getReg s k) ∧
      KeepsBytesOutside s.i.toNat (x.toNat + 1) s t ∧ t.i.toNat = s.i.toNat + x.toNat + 1 ∧ t.pc = s.pc + 2 ∧
      KeepsAllBut [.mem, .i, .pc] s t) ∧
    ∀ x s, 4095 < s.i.toNat + x.toNat → ∃ t, exec (.ldMemVx x) s = .next t ∧
      FaultTaken 4 (BitVec.ofNat 16 (max s.i.toNat 4096)) s t

/-- R145; the fault's code, and that nothing else changes, are the spec's decisions D10 and D11 (R86, R170, R181; logs 2, 12):
V0 to V[X] loaded from I, I advanced by X + 1, or the fault with nothing loaded. -/
def Obligations.BlockLoadCopiesMemory : Prop :=
  (∀ x, decode (wordXNN 0xF x 0x65) = .ok (.ldVxMem x)) ∧
    (∀ x s, s.i.toNat + x.toNat ≤ 4095 → ∃ t, exec (.ldVxMem x) s = .next t ∧
      (∀ k : Nibble, getReg t k =
        if k.toNat ≤ x.toNat then Memory.read s.mem (s.i.toNat + k.toNat) else getReg s k) ∧
      t.i.toNat = s.i.toNat + x.toNat + 1 ∧ t.pc = s.pc + 2 ∧ KeepsAllBut [.v, .i, .pc] s t) ∧
    ∀ x s, 4095 < s.i.toNat + x.toNat → ∃ t, exec (.ldVxMem x) s = .next t ∧
      FaultTaken 4 (BitVec.ofNat 16 (max s.i.toNat 4096)) s t

/-- A block store and then a block load from the same I bring the registers back, whatever they held between. -/
def Obligations.BlockLoadUndoesBlockStore : Prop :=
  ∀ x s (v : Regs), Memory.wf s.mem → s.i.toNat + x.toNat ≤ 4095 →
    ∃ t u, exec (.ldMemVx x) s = .next t ∧ exec (.ldVxMem x) { t with i := s.i, v := v } = .next u ∧
      (∀ k : Nibble, k.toNat ≤ x.toNat → getReg u k = getReg s k) ∧ u.i = t.i

/-! ### Display -/

/-- R151. The pattern is general knowledge (log 6). -/
def Obligations.ClsBlanksTheDisplay : Prop :=
  decode 0x00E0 = .ok .cls ∧
    ∀ s, ∃ t, exec .cls s = .next t ∧ (∀ k, k < 2048 → pixel t.disp k = false) ∧ t.redraw = true ∧ t.pc = s.pc + 2 ∧
      KeepsAllBut [.disp, .redraw, .pc] s t

/-- R152: the draw, and its two faults, memory before display, the first pixel out of range in drawing order. Bit 7 leftmost
and VF cleared are general knowledge (log 23), the collision rule is conflict C4 (log 5), the display fault decision D12 (log
13). -/
def Obligations.DrwDrawsByXorOrFaults : Prop :=
  (∀ x y n, decode (wordXYN 0xD x y n) = .ok (.drw x y n)) ∧
    (∀ x y n s, SpriteFits s x y n → ∃ t, exec (.drw x y n) s = .next t ∧
      (∀ k, k < 2048 → (pixel t.disp k ≠ pixel s.disp k ↔ ∃ r c, SpriteSet s n r c ∧ spriteIndex s x y r c = k)) ∧
      (getReg t vf = 1 ∨ getReg t vf = 0) ∧
      (getReg t vf = 1 ↔ ∃ r c, SpriteSet s n r c ∧ pixel s.disp (spriteIndex s x y r c) = true) ∧
      t.redraw = true ∧ t.pc = s.pc + 2 ∧ KeepsRegsBut [vf] s t ∧ KeepsAllBut [.v, .disp, .redraw, .pc] s t) ∧
    (∀ x y (n : Nibble) s, 0 < n.toNat → 4095 < s.i.toNat + n.toNat - 1 → ∃ t, exec (.drw x y n) s = .next t ∧
      FaultTaken 4 (BitVec.ofNat 16 (max s.i.toNat 4096)) s t) ∧
    ∀ x y n s r c, s.i.toNat + n.toNat ≤ 4096 → SpriteSet s n r c → 2047 < spriteIndex s x y r c →
      (∀ r' c', SpriteSet s n r' c' → r' < r ∨ (r' = r ∧ c' < c) → spriteIndex s x y r' c' ≤ 2047) →
      ∃ t, exec (.drw x y n) s = .next t ∧ FaultTaken 5 (BitVec.ofNat 16 (spriteIndex s x y r c)) s t

/-- A sprite drawn twice at the same coordinates leaves the display as it was, and the second VF says whether the sprite had a
set bit whose pixel the first draw left lit. -/
def Obligations.DrawingTwiceRestoresTheDisplay : Prop :=
  ∀ x y n s, x ≠ vf → y ≠ vf → SpriteFits s x y n →
    ∃ t u, exec (.drw x y n) s = .next t ∧ exec (.drw x y n) t = .next u ∧ u.disp = s.disp ∧
      (getReg u vf = 1 ↔ ∃ r c, SpriteSet s n r c ∧ pixel s.disp (spriteIndex s x y r c) = false)

/-! ### Keypad and timers -/

/-- R160, R161, R176. Patterns and polarity are general knowledge (log 6), the fault is the spec's decision D13 (log 13). -/
def Obligations.KeySkipsTestTheSnapshot : Prop :=
  (∀ x, decode (wordXNN 0xE x 0x9E) = .ok (.skp x)) ∧ (∀ x, decode (wordXNN 0xE x 0xA1) = .ok (.sknp x)) ∧
    (∀ x s, (getReg s x).toNat ≤ 15 → ∃ t, exec (.skp x) s = .next t ∧
      t.pc = (if keyDown s (getReg s x).toNat then s.pc + 4 else s.pc + 2) ∧ KeepsAllBut [.pc] s t) ∧
    (∀ x s, (getReg s x).toNat ≤ 15 → ∃ t, exec (.sknp x) s = .next t ∧
      t.pc = (if keyDown s (getReg s x).toNat then s.pc + 2 else s.pc + 4) ∧ KeepsAllBut [.pc] s t) ∧
    ∀ x s, 15 < (getReg s x).toNat →
      (∃ t, exec (.skp x) s = .next t ∧ FaultTaken 6 (BitVec.ofNat 16 (getReg s x).toNat) s t) ∧
        ∃ t, exec (.sknp x) s = .next t ∧ FaultTaken 6 (BitVec.ofNat 16 (getReg s x).toNat) s t

/-- R162: the highest key down; or nothing while none is, and then the Step is the tick alone and answers Done. -/
def Obligations.KeyWaitTakesTheHighestKey : Prop :=
  (∀ x, decode (wordXNN 0xF x 0x0A) = .ok (.ldVxK x)) ∧
    (∀ x s k, k < 16 → keyDown s k = true → (∀ j, k < j → j < 16 → keyDown s j = false) →
      ∃ t, exec (.ldVxK x) s = .next t ∧ (getReg t x).toNat = k ∧ t.pc = s.pc + 2 ∧ KeepsRegsBut [x] s t ∧
        KeepsAllBut [.v, .pc] s t) ∧
    (∀ x s, (∀ j, j < 16 → keyDown s j = false) → exec (.ldVxK x) s = .next s) ∧
    ∀ x s, s.halt = false → fetch s = .ok (wordXNN 0xF x 0x0A) → (∀ j, j < 16 → keyDown s j = false) →
      step s = .next (tick s) ∧ stepResult s = .done

/-- R163, R164, R165, from general knowledge (log 6): the transfer, and with the tick of the same Step (log 21) the values the
Step leaves. -/
def Obligations.TimerTransfersTickInTheSameStep : Prop :=
  (∀ x, decode (wordXNN 0xF x 0x07) = .ok (.ldVxDt x)) ∧ (∀ x, decode (wordXNN 0xF x 0x15) = .ok (.ldDtVx x)) ∧
    (∀ x, decode (wordXNN 0xF x 0x18) = .ok (.ldStVx x)) ∧
    (∀ x s, ∃ t, exec (.ldVxDt x) s = .next t ∧ getReg t x = s.dt ∧ (tick t).dt.toNat = s.dt.toNat - 1 ∧
      t.pc = s.pc + 2 ∧ KeepsRegsBut [x] s t ∧ KeepsAllBut [.v, .pc] s t) ∧
    (∀ x s, ∃ t, exec (.ldDtVx x) s = .next t ∧ t.dt = getReg s x ∧ (tick t).dt.toNat = (getReg s x).toNat - 1 ∧
      t.pc = s.pc + 2 ∧ KeepsAllBut [.dt, .pc] s t) ∧
    ∀ x s, ∃ t, exec (.ldStVx x) s = .next t ∧ t.st = getReg s x ∧ (tick t).st.toNat = (getReg s x).toNat - 1 ∧
      ((tick t).beep = true ↔ s.beep = true ∨ (getReg s x).toNat = 1) ∧ t.pc = s.pc + 2 ∧ KeepsAllBut [.st, .pc] s t

/-! ### The draw -/

/-- R88: a Step that executes RND consumes one draw and nothing else does, Reset included, so no draw is read twice: every drawn
byte is a free value of its own. `draws` is the model's own counter of draws (log 1). -/
def Obligations.NoDrawIsReadTwice : Prop :=
  (∀ o s t, perform o s = .next t →
    t.draws = s.draws ∨
      (t.draws = s.draws + 1 ∧ o = .step ∧ ∃ op x nn, fetch s = .ok op ∧ decode op = .ok (.rnd x nn))) ∧
    ∀ s op x nn, s.halt = false → fetch s = .ok op → decode op = .ok (.rnd x nn) →
      ∃ t, step s = .next t ∧ t.draws = s.draws + 1 ∧
        (∀ k, (getReg t x).getLsbD k = ((Config.rndIn s.draws).getLsbD k && nn.getLsbD k))
end

