-- ==== Sys2Proof/Laws/Memory.lean ====
section
/-! SUPPORT. The laws of memory: what a read gives after a write or a run of writes, and that every memory operation keeps
the canonical form. -/

namespace Sys2Proof.Machine

/-! ### Reading after writing -/

theorem read_erase_same (m : Memory) (a : Nat) (h : m.Pairwise (fun p q => p.1 < q.1)) :
    Memory.read (Memory.erase m a) a = initialByte a := by
  induction m with
  | nil => rfl
  | cons p rest ih =>
    obtain ⟨c, b⟩ := p
    obtain ⟨hc, hr⟩ := List.pairwise_cons.mp h
    by_cases hac : a = c
    · subst hac
      simp only [Memory.erase, if_true]
      clear ih hr h
      induction rest with
      | nil => rfl
      | cons q rest ih =>
        have hq : a ≠ q.1 := Nat.ne_of_lt (hc q List.mem_cons_self)
        simp only [Memory.read, if_neg hq]
        exact ih fun p hp => hc p (List.mem_cons_of_mem _ hp)
    · simp [Memory.erase, Memory.read, hac, ih hr]

theorem read_erase_of_ne (m : Memory) (a k : Nat) (h : k ≠ a) :
    Memory.read (Memory.erase m a) k = Memory.read m k := by
  induction m with
  | nil => rfl
  | cons p rest ih =>
    obtain ⟨c, b⟩ := p
    by_cases hac : a = c
    · subst hac
      simp [Memory.erase, Memory.read, h]
    · by_cases hkc : k = c <;> simp [Memory.erase, Memory.read, hac, hkc, ih]

theorem read_insert (m : Memory) (a k : Nat) (v : Byte) :
    Memory.read (Memory.insert m a v) k = if k = a then v else Memory.read m k := by
  induction m with
  | nil => simp [Memory.insert, Memory.read]
  | cons p rest ih =>
    obtain ⟨c, b⟩ := p
    simp only [Memory.insert]
    split
    · simp [Memory.read]
    · split
      · rename_i hac
        subst hac
        by_cases hk : k = a <;> simp [Memory.read, hk]
      · rename_i hac
        by_cases hk : k = c
        · subst hk
          have : k ≠ a := fun e => hac e.symm
          simp [Memory.read, this]
        · simp [Memory.read, hk, ih]

/-- A write leaves every other address alone. -/
theorem read_write_of_ne (m : Memory) (a k : Nat) (v : Byte) (h : k ≠ a) :
    Memory.read (Memory.write m a v) k = Memory.read m k := by
  unfold Memory.write
  split
  · split
    · exact read_erase_of_ne m a k h
    · simp [read_insert, h]
  · rfl

/-- A read after a write to the same address gives the value written (R45). -/
theorem read_write_same (m : Memory) (a : Nat) (v : Byte) (hm : Memory.wf m) (ha : a < Config.memSize) :
    Memory.read (Memory.write m a v) a = v := by
  unfold Memory.write
  rw [if_pos ha]
  split
  · rename_i hv
    rw [read_erase_same m a hm.1, hv]
  · simp [read_insert]

/-! ### The canonical form -/

theorem mem_erase (m : Memory) (a : Nat) (p : Host.Cell) (h : p ∈ Memory.erase m a) : p ∈ m := by
  induction m with
  | nil => exact h
  | cons q rest ih =>
    obtain ⟨c, b⟩ := q
    simp only [Memory.erase] at h
    split at h
    · exact List.mem_cons_of_mem _ h
    · rcases List.mem_cons.mp h with e | h
      · exact e ▸ List.mem_cons_self
      · exact List.mem_cons_of_mem _ (ih h)

theorem mem_insert (m : Memory) (a : Nat) (v : Byte) (p : Host.Cell) (h : p ∈ Memory.insert m a v) :
    p = (a, v) ∨ p ∈ m := by
  induction m with
  | nil => exact .inl (List.mem_singleton.mp h)
  | cons q rest ih =>
    obtain ⟨c, b⟩ := q
    simp only [Memory.insert] at h
    split at h
    · rcases List.mem_cons.mp h with e | h
      · exact .inl e
      · exact .inr h
    · split at h
      · rcases List.mem_cons.mp h with e | h
        · exact .inl e
        · exact .inr (List.mem_cons_of_mem _ h)
      · rcases List.mem_cons.mp h with e | h
        · exact .inr (e ▸ List.mem_cons_self)
        · exact (ih h).imp id (List.mem_cons_of_mem _)

theorem sorted_erase (m : Memory) (a : Nat) (h : m.Pairwise (fun p q => p.1 < q.1)) :
    (Memory.erase m a).Pairwise (fun p q => p.1 < q.1) := by
  induction m with
  | nil => exact h
  | cons q rest ih =>
    obtain ⟨c, b⟩ := q
    obtain ⟨hc, hr⟩ := List.pairwise_cons.mp h
    simp only [Memory.erase]
    split
    · exact hr
    · exact List.pairwise_cons.mpr ⟨fun p hp => hc p (mem_erase rest a p hp), ih hr⟩

theorem sorted_insert (m : Memory) (a : Nat) (v : Byte) (h : m.Pairwise (fun p q => p.1 < q.1)) :
    (Memory.insert m a v).Pairwise (fun p q => p.1 < q.1) := by
  induction m with
  | nil => exact List.pairwise_singleton _ _
  | cons q rest ih =>
    obtain ⟨c, b⟩ := q
    obtain ⟨hc, hr⟩ := List.pairwise_cons.mp h
    simp only [Memory.insert]
    split
    · rename_i hlt
      refine List.pairwise_cons.mpr ⟨fun p hp => ?_, h⟩
      rcases List.mem_cons.mp hp with e | hp
      · subst e; exact hlt
      · exact Nat.lt_trans hlt (hc p hp)
    · split
      · rename_i hac
        subst hac
        exact List.pairwise_cons.mpr ⟨hc, hr⟩
      · rename_i hlt hne
        refine List.pairwise_cons.mpr ⟨fun p hp => ?_, ih hr⟩
        rcases mem_insert rest a v p hp with e | hp
        · subst e; exact Nat.lt_of_le_of_ne (Nat.le_of_not_lt hlt) (fun e => hne e.symm)
        · exact hc p hp

/-- A write keeps the canonical form. -/
theorem write_wf (m : Memory) (a : Nat) (v : Byte) (h : Memory.wf m) : Memory.wf (Memory.write m a v) := by
  unfold Memory.write
  split
  · rename_i ha
    split
    · exact ⟨sorted_erase m a h.1, fun p hp => h.2 p (mem_erase m a p hp)⟩
    · rename_i hv
      refine ⟨sorted_insert m a v h.1, fun p hp => ?_⟩
      rcases mem_insert m a v p hp with e | hp
      · subst e; exact ⟨ha, hv⟩
      · exact h.2 p hp
  · exact h

/-- A run of writes keeps the canonical form. -/
theorem writeRun_wf (m : Memory) (base : Nat) (bytes : List Byte) (h : Memory.wf m) :
    Memory.wf (Memory.writeRun m base bytes) := by
  induction bytes generalizing m base with
  | nil => exact h
  | cons b rest ih => exact ih (Memory.write m base b) (base + 1) (write_wf m base b h)

/-- A checked run of writes that goes through keeps the canonical form. -/
theorem writeChecked_wf (m m' : Memory) (base : Nat) (bytes : List Byte) (h : Memory.wf m)
    (hw : writeChecked m base bytes = .ok m') : Memory.wf m' := by
  unfold writeChecked at hw
  split at hw
  · exact Except.ok.inj hw ▸ writeRun_wf m base bytes h
  · exact nomatch hw

theorem reset_mem_wf : Memory.wf State.reset.mem := by decide

/-- A byte outside memory reads as nothing was ever written there. -/
theorem read_outside (m : Memory) (a : Nat) (h : Memory.wf m) (ha : Config.memSize ≤ a) :
    Memory.read m a = initialByte a := by
  induction m with
  | nil => rfl
  | cons p rest ih =>
    have hp : a ≠ p.1 := fun e => absurd (h.2 p List.mem_cons_self).1 (by omega)
    simp only [Memory.read, if_neg hp]
    exact ih ⟨(List.pairwise_cons.mp h.1).2, fun q hq => h.2 q (List.mem_cons_of_mem _ hq)⟩

/-! ### Runs -/

/-- A run of writes leaves every byte outside it alone. -/
theorem read_writeRun_outside (m : Memory) (base k : Nat) (bytes : List Byte)
    (h : k < base ∨ base + bytes.length ≤ k) : Memory.read (Memory.writeRun m base bytes) k = Memory.read m k := by
  induction bytes generalizing m base with
  | nil => rfl
  | cons b rest ih =>
    rw [List.length_cons] at h
    rw [Memory.writeRun, ih _ _ (by omega), read_write_of_ne _ _ _ _ (by omega)]

/-- A run of writes inside memory stores each byte at its address. -/
theorem read_writeRun_inside (m : Memory) (base k : Nat) (bytes : List Byte) (hm : Memory.wf m)
    (hb : base + bytes.length ≤ Config.memSize) (hk : k < bytes.length) :
    Memory.read (Memory.writeRun m base bytes) (base + k) = bytes[k] := by
  induction bytes generalizing m base k with
  | nil => exact absurd hk (Nat.not_lt_zero k)
  | cons b rest ih =>
    rw [List.length_cons] at hb hk
    cases k with
    | zero =>
      rw [Memory.writeRun, read_writeRun_outside _ _ _ _ (by omega)]
      exact read_write_same m base b hm (by omega)
    | succ k =>
      rw [Memory.writeRun, show base + (k + 1) = base + 1 + k by omega]
      exact ih _ _ k (write_wf m base b hm) (by omega) (by omega)

@[simp] theorem readRun_length (m : Memory) (base count : Nat) : (Memory.readRun m base count).length = count := by
  induction count generalizing base with
  | zero => rfl
  | succ n ih => simp [Memory.readRun, ih]

theorem readRun_getElem (m : Memory) (base count k : Nat) (h : k < (Memory.readRun m base count).length) :
    (Memory.readRun m base count)[k] = Memory.read m (base + k) := by
  induction count generalizing base k with
  | zero => exact absurd h (Nat.not_lt_zero k)
  | succ n ih =>
    cases k with
    | zero => rfl
    | succ k =>
      simp only [Memory.readRun, List.getElem_cons_succ]
      rw [ih]
      congr 1
      omega

/-! ### The checked runs: all they can do -/

theorem readChecked_ok (m : Memory) (base count : Nat) (h : count = 0 ∨ base + count ≤ Config.memSize) :
    readChecked m base count = .ok (Memory.readRun m base count) := by
  rw [readChecked, if_pos h]

theorem readChecked_error (m : Memory) (base count : Nat) (h0 : count ≠ 0) (h : Config.memSize < base + count) :
    readChecked m base count = .error (.outOfBoundsMemoryAccess (max base Config.memSize)) := by
  rw [readChecked, if_neg (by omega), runFault]

theorem writeChecked_ok (m : Memory) (base : Nat) (bytes : List Byte)
    (h : bytes.length = 0 ∨ base + bytes.length ≤ Config.memSize) :
    writeChecked m base bytes = .ok (Memory.writeRun m base bytes) := by
  rw [writeChecked, if_pos h]

theorem writeChecked_error (m : Memory) (base : Nat) (bytes : List Byte) (h0 : bytes.length ≠ 0)
    (h : Config.memSize < base + bytes.length) :
    writeChecked m base bytes = .error (.outOfBoundsMemoryAccess (max base Config.memSize)) := by
  rw [writeChecked, if_neg (by omega), runFault]

end Sys2Proof.Machine
end

