-- ==== Sys2Proof/Laws/State.lean ====
section
/-! SUPPORT. One lemma per field of State per named update, true by `rfl`, so that no later proof unfolds an update. -/

namespace Sys2Proof.Machine

/-! ### setReg -/

@[simp] theorem setReg_mem (s : State) (x : Nibble) (b : Byte) : (setReg s x b).mem = s.mem := rfl
@[simp] theorem setReg_v (s : State) (x : Nibble) (b : Byte) : (setReg s x b).v = s.v.set x.toNat b x.isLt := rfl
@[simp] theorem setReg_i (s : State) (x : Nibble) (b : Byte) : (setReg s x b).i = s.i := rfl
@[simp] theorem setReg_pc (s : State) (x : Nibble) (b : Byte) : (setReg s x b).pc = s.pc := rfl
@[simp] theorem setReg_stack (s : State) (x : Nibble) (b : Byte) : (setReg s x b).stack = s.stack := rfl
@[simp] theorem setReg_sp (s : State) (x : Nibble) (b : Byte) : (setReg s x b).sp = s.sp := rfl
@[simp] theorem setReg_dt (s : State) (x : Nibble) (b : Byte) : (setReg s x b).dt = s.dt := rfl
@[simp] theorem setReg_st (s : State) (x : Nibble) (b : Byte) : (setReg s x b).st = s.st := rfl
@[simp] theorem setReg_disp (s : State) (x : Nibble) (b : Byte) : (setReg s x b).disp = s.disp := rfl
@[simp] theorem setReg_keys (s : State) (x : Nibble) (b : Byte) : (setReg s x b).keys = s.keys := rfl
@[simp] theorem setReg_redraw (s : State) (x : Nibble) (b : Byte) : (setReg s x b).redraw = s.redraw := rfl
@[simp] theorem setReg_beep (s : State) (x : Nibble) (b : Byte) : (setReg s x b).beep = s.beep := rfl
@[simp] theorem setReg_halt (s : State) (x : Nibble) (b : Byte) : (setReg s x b).halt = s.halt := rfl
@[simp] theorem setReg_fcause (s : State) (x : Nibble) (b : Byte) : (setReg s x b).fcause = s.fcause := rfl
@[simp] theorem setReg_finfo (s : State) (x : Nibble) (b : Byte) : (setReg s x b).finfo = s.finfo := rfl
@[simp] theorem setReg_unk (s : State) (x : Nibble) (b : Byte) : (setReg s x b).unk = s.unk := rfl
@[simp] theorem setReg_draws (s : State) (x : Nibble) (b : Byte) : (setReg s x b).draws = s.draws := rfl

/-! ### setRegs -/

@[simp] theorem setRegs_mem (s : State) (v : Regs) : (setRegs s v).mem = s.mem := rfl
@[simp] theorem setRegs_v (s : State) (v : Regs) : (setRegs s v).v = v := rfl
@[simp] theorem setRegs_i (s : State) (v : Regs) : (setRegs s v).i = s.i := rfl
@[simp] theorem setRegs_pc (s : State) (v : Regs) : (setRegs s v).pc = s.pc := rfl
@[simp] theorem setRegs_stack (s : State) (v : Regs) : (setRegs s v).stack = s.stack := rfl
@[simp] theorem setRegs_sp (s : State) (v : Regs) : (setRegs s v).sp = s.sp := rfl
@[simp] theorem setRegs_dt (s : State) (v : Regs) : (setRegs s v).dt = s.dt := rfl
@[simp] theorem setRegs_st (s : State) (v : Regs) : (setRegs s v).st = s.st := rfl
@[simp] theorem setRegs_disp (s : State) (v : Regs) : (setRegs s v).disp = s.disp := rfl
@[simp] theorem setRegs_keys (s : State) (v : Regs) : (setRegs s v).keys = s.keys := rfl
@[simp] theorem setRegs_redraw (s : State) (v : Regs) : (setRegs s v).redraw = s.redraw := rfl
@[simp] theorem setRegs_beep (s : State) (v : Regs) : (setRegs s v).beep = s.beep := rfl
@[simp] theorem setRegs_halt (s : State) (v : Regs) : (setRegs s v).halt = s.halt := rfl
@[simp] theorem setRegs_fcause (s : State) (v : Regs) : (setRegs s v).fcause = s.fcause := rfl
@[simp] theorem setRegs_finfo (s : State) (v : Regs) : (setRegs s v).finfo = s.finfo := rfl
@[simp] theorem setRegs_unk (s : State) (v : Regs) : (setRegs s v).unk = s.unk := rfl
@[simp] theorem setRegs_draws (s : State) (v : Regs) : (setRegs s v).draws = s.draws := rfl

/-! ### setIndex -/

@[simp] theorem setIndex_mem (s : State) (w : Word) : (setIndex s w).mem = s.mem := rfl
@[simp] theorem setIndex_v (s : State) (w : Word) : (setIndex s w).v = s.v := rfl
@[simp] theorem setIndex_i (s : State) (w : Word) : (setIndex s w).i = w := rfl
@[simp] theorem setIndex_pc (s : State) (w : Word) : (setIndex s w).pc = s.pc := rfl
@[simp] theorem setIndex_stack (s : State) (w : Word) : (setIndex s w).stack = s.stack := rfl
@[simp] theorem setIndex_sp (s : State) (w : Word) : (setIndex s w).sp = s.sp := rfl
@[simp] theorem setIndex_dt (s : State) (w : Word) : (setIndex s w).dt = s.dt := rfl
@[simp] theorem setIndex_st (s : State) (w : Word) : (setIndex s w).st = s.st := rfl
@[simp] theorem setIndex_disp (s : State) (w : Word) : (setIndex s w).disp = s.disp := rfl
@[simp] theorem setIndex_keys (s : State) (w : Word) : (setIndex s w).keys = s.keys := rfl
@[simp] theorem setIndex_redraw (s : State) (w : Word) : (setIndex s w).redraw = s.redraw := rfl
@[simp] theorem setIndex_beep (s : State) (w : Word) : (setIndex s w).beep = s.beep := rfl
@[simp] theorem setIndex_halt (s : State) (w : Word) : (setIndex s w).halt = s.halt := rfl
@[simp] theorem setIndex_fcause (s : State) (w : Word) : (setIndex s w).fcause = s.fcause := rfl
@[simp] theorem setIndex_finfo (s : State) (w : Word) : (setIndex s w).finfo = s.finfo := rfl
@[simp] theorem setIndex_unk (s : State) (w : Word) : (setIndex s w).unk = s.unk := rfl
@[simp] theorem setIndex_draws (s : State) (w : Word) : (setIndex s w).draws = s.draws := rfl
@[simp] theorem getReg_setIndex (s : State) (w : Word) (r : Nibble) : getReg (setIndex s w) r = getReg s r := rfl

/-! ### setDelay -/

@[simp] theorem setDelay_mem (s : State) (b : Byte) : (setDelay s b).mem = s.mem := rfl
@[simp] theorem setDelay_v (s : State) (b : Byte) : (setDelay s b).v = s.v := rfl
@[simp] theorem setDelay_i (s : State) (b : Byte) : (setDelay s b).i = s.i := rfl
@[simp] theorem setDelay_pc (s : State) (b : Byte) : (setDelay s b).pc = s.pc := rfl
@[simp] theorem setDelay_stack (s : State) (b : Byte) : (setDelay s b).stack = s.stack := rfl
@[simp] theorem setDelay_sp (s : State) (b : Byte) : (setDelay s b).sp = s.sp := rfl
@[simp] theorem setDelay_dt (s : State) (b : Byte) : (setDelay s b).dt = b := rfl
@[simp] theorem setDelay_st (s : State) (b : Byte) : (setDelay s b).st = s.st := rfl
@[simp] theorem setDelay_disp (s : State) (b : Byte) : (setDelay s b).disp = s.disp := rfl
@[simp] theorem setDelay_keys (s : State) (b : Byte) : (setDelay s b).keys = s.keys := rfl
@[simp] theorem setDelay_redraw (s : State) (b : Byte) : (setDelay s b).redraw = s.redraw := rfl
@[simp] theorem setDelay_beep (s : State) (b : Byte) : (setDelay s b).beep = s.beep := rfl
@[simp] theorem setDelay_halt (s : State) (b : Byte) : (setDelay s b).halt = s.halt := rfl
@[simp] theorem setDelay_fcause (s : State) (b : Byte) : (setDelay s b).fcause = s.fcause := rfl
@[simp] theorem setDelay_finfo (s : State) (b : Byte) : (setDelay s b).finfo = s.finfo := rfl
@[simp] theorem setDelay_unk (s : State) (b : Byte) : (setDelay s b).unk = s.unk := rfl
@[simp] theorem setDelay_draws (s : State) (b : Byte) : (setDelay s b).draws = s.draws := rfl
@[simp] theorem getReg_setDelay (s : State) (b : Byte) (r : Nibble) : getReg (setDelay s b) r = getReg s r := rfl

/-! ### setSound -/

@[simp] theorem setSound_mem (s : State) (b : Byte) : (setSound s b).mem = s.mem := rfl
@[simp] theorem setSound_v (s : State) (b : Byte) : (setSound s b).v = s.v := rfl
@[simp] theorem setSound_i (s : State) (b : Byte) : (setSound s b).i = s.i := rfl
@[simp] theorem setSound_pc (s : State) (b : Byte) : (setSound s b).pc = s.pc := rfl
@[simp] theorem setSound_stack (s : State) (b : Byte) : (setSound s b).stack = s.stack := rfl
@[simp] theorem setSound_sp (s : State) (b : Byte) : (setSound s b).sp = s.sp := rfl
@[simp] theorem setSound_dt (s : State) (b : Byte) : (setSound s b).dt = s.dt := rfl
@[simp] theorem setSound_st (s : State) (b : Byte) : (setSound s b).st = b := rfl
@[simp] theorem setSound_disp (s : State) (b : Byte) : (setSound s b).disp = s.disp := rfl
@[simp] theorem setSound_keys (s : State) (b : Byte) : (setSound s b).keys = s.keys := rfl
@[simp] theorem setSound_redraw (s : State) (b : Byte) : (setSound s b).redraw = s.redraw := rfl
@[simp] theorem setSound_beep (s : State) (b : Byte) : (setSound s b).beep = s.beep := rfl
@[simp] theorem setSound_halt (s : State) (b : Byte) : (setSound s b).halt = s.halt := rfl
@[simp] theorem setSound_fcause (s : State) (b : Byte) : (setSound s b).fcause = s.fcause := rfl
@[simp] theorem setSound_finfo (s : State) (b : Byte) : (setSound s b).finfo = s.finfo := rfl
@[simp] theorem setSound_unk (s : State) (b : Byte) : (setSound s b).unk = s.unk := rfl
@[simp] theorem setSound_draws (s : State) (b : Byte) : (setSound s b).draws = s.draws := rfl
@[simp] theorem getReg_setSound (s : State) (b : Byte) (r : Nibble) : getReg (setSound s b) r = getReg s r := rfl

/-! ### setMem -/

@[simp] theorem setMem_mem (s : State) (m : Memory) : (setMem s m).mem = m := rfl
@[simp] theorem setMem_v (s : State) (m : Memory) : (setMem s m).v = s.v := rfl
@[simp] theorem setMem_i (s : State) (m : Memory) : (setMem s m).i = s.i := rfl
@[simp] theorem setMem_pc (s : State) (m : Memory) : (setMem s m).pc = s.pc := rfl
@[simp] theorem setMem_stack (s : State) (m : Memory) : (setMem s m).stack = s.stack := rfl
@[simp] theorem setMem_sp (s : State) (m : Memory) : (setMem s m).sp = s.sp := rfl
@[simp] theorem setMem_dt (s : State) (m : Memory) : (setMem s m).dt = s.dt := rfl
@[simp] theorem setMem_st (s : State) (m : Memory) : (setMem s m).st = s.st := rfl
@[simp] theorem setMem_disp (s : State) (m : Memory) : (setMem s m).disp = s.disp := rfl
@[simp] theorem setMem_keys (s : State) (m : Memory) : (setMem s m).keys = s.keys := rfl
@[simp] theorem setMem_redraw (s : State) (m : Memory) : (setMem s m).redraw = s.redraw := rfl
@[simp] theorem setMem_beep (s : State) (m : Memory) : (setMem s m).beep = s.beep := rfl
@[simp] theorem setMem_halt (s : State) (m : Memory) : (setMem s m).halt = s.halt := rfl
@[simp] theorem setMem_fcause (s : State) (m : Memory) : (setMem s m).fcause = s.fcause := rfl
@[simp] theorem setMem_finfo (s : State) (m : Memory) : (setMem s m).finfo = s.finfo := rfl
@[simp] theorem setMem_unk (s : State) (m : Memory) : (setMem s m).unk = s.unk := rfl
@[simp] theorem setMem_draws (s : State) (m : Memory) : (setMem s m).draws = s.draws := rfl
@[simp] theorem getReg_setMem (s : State) (m : Memory) (r : Nibble) : getReg (setMem s m) r = getReg s r := rfl

/-! ### setPc -/

@[simp] theorem setPc_mem (s : State) (w : Word) : (setPc s w).mem = s.mem := rfl
@[simp] theorem setPc_v (s : State) (w : Word) : (setPc s w).v = s.v := rfl
@[simp] theorem setPc_i (s : State) (w : Word) : (setPc s w).i = s.i := rfl
@[simp] theorem setPc_pc (s : State) (w : Word) : (setPc s w).pc = w := rfl
@[simp] theorem setPc_stack (s : State) (w : Word) : (setPc s w).stack = s.stack := rfl
@[simp] theorem setPc_sp (s : State) (w : Word) : (setPc s w).sp = s.sp := rfl
@[simp] theorem setPc_dt (s : State) (w : Word) : (setPc s w).dt = s.dt := rfl
@[simp] theorem setPc_st (s : State) (w : Word) : (setPc s w).st = s.st := rfl
@[simp] theorem setPc_disp (s : State) (w : Word) : (setPc s w).disp = s.disp := rfl
@[simp] theorem setPc_keys (s : State) (w : Word) : (setPc s w).keys = s.keys := rfl
@[simp] theorem setPc_redraw (s : State) (w : Word) : (setPc s w).redraw = s.redraw := rfl
@[simp] theorem setPc_beep (s : State) (w : Word) : (setPc s w).beep = s.beep := rfl
@[simp] theorem setPc_halt (s : State) (w : Word) : (setPc s w).halt = s.halt := rfl
@[simp] theorem setPc_fcause (s : State) (w : Word) : (setPc s w).fcause = s.fcause := rfl
@[simp] theorem setPc_finfo (s : State) (w : Word) : (setPc s w).finfo = s.finfo := rfl
@[simp] theorem setPc_unk (s : State) (w : Word) : (setPc s w).unk = s.unk := rfl
@[simp] theorem setPc_draws (s : State) (w : Word) : (setPc s w).draws = s.draws := rfl
@[simp] theorem getReg_setPc (s : State) (w : Word) (r : Nibble) : getReg (setPc s w) r = getReg s r := rfl

/-! ### advance -/

@[simp] theorem advance_mem (s : State) : (advance s).mem = s.mem := rfl
@[simp] theorem advance_v (s : State) : (advance s).v = s.v := rfl
@[simp] theorem advance_i (s : State) : (advance s).i = s.i := rfl
@[simp] theorem advance_pc (s : State) : (advance s).pc = s.pc + 2 := rfl
@[simp] theorem advance_stack (s : State) : (advance s).stack = s.stack := rfl
@[simp] theorem advance_sp (s : State) : (advance s).sp = s.sp := rfl
@[simp] theorem advance_dt (s : State) : (advance s).dt = s.dt := rfl
@[simp] theorem advance_st (s : State) : (advance s).st = s.st := rfl
@[simp] theorem advance_disp (s : State) : (advance s).disp = s.disp := rfl
@[simp] theorem advance_keys (s : State) : (advance s).keys = s.keys := rfl
@[simp] theorem advance_redraw (s : State) : (advance s).redraw = s.redraw := rfl
@[simp] theorem advance_beep (s : State) : (advance s).beep = s.beep := rfl
@[simp] theorem advance_halt (s : State) : (advance s).halt = s.halt := rfl
@[simp] theorem advance_fcause (s : State) : (advance s).fcause = s.fcause := rfl
@[simp] theorem advance_finfo (s : State) : (advance s).finfo = s.finfo := rfl
@[simp] theorem advance_unk (s : State) : (advance s).unk = s.unk := rfl
@[simp] theorem advance_draws (s : State) : (advance s).draws = s.draws := rfl
@[simp] theorem getReg_advance (s : State) (r : Nibble) : getReg (advance s) r = getReg s r := rfl

/-! ### skipIf -/

@[simp] theorem skipIf_mem (c : Bool) (s : State) : (skipIf c s).mem = s.mem := rfl
@[simp] theorem skipIf_v (c : Bool) (s : State) : (skipIf c s).v = s.v := rfl
@[simp] theorem skipIf_i (c : Bool) (s : State) : (skipIf c s).i = s.i := rfl
@[simp] theorem skipIf_pc (c : Bool) (s : State) : (skipIf c s).pc = if c then s.pc + 4 else s.pc + 2 := rfl
@[simp] theorem skipIf_stack (c : Bool) (s : State) : (skipIf c s).stack = s.stack := rfl
@[simp] theorem skipIf_sp (c : Bool) (s : State) : (skipIf c s).sp = s.sp := rfl
@[simp] theorem skipIf_dt (c : Bool) (s : State) : (skipIf c s).dt = s.dt := rfl
@[simp] theorem skipIf_st (c : Bool) (s : State) : (skipIf c s).st = s.st := rfl
@[simp] theorem skipIf_disp (c : Bool) (s : State) : (skipIf c s).disp = s.disp := rfl
@[simp] theorem skipIf_keys (c : Bool) (s : State) : (skipIf c s).keys = s.keys := rfl
@[simp] theorem skipIf_redraw (c : Bool) (s : State) : (skipIf c s).redraw = s.redraw := rfl
@[simp] theorem skipIf_beep (c : Bool) (s : State) : (skipIf c s).beep = s.beep := rfl
@[simp] theorem skipIf_halt (c : Bool) (s : State) : (skipIf c s).halt = s.halt := rfl
@[simp] theorem skipIf_fcause (c : Bool) (s : State) : (skipIf c s).fcause = s.fcause := rfl
@[simp] theorem skipIf_finfo (c : Bool) (s : State) : (skipIf c s).finfo = s.finfo := rfl
@[simp] theorem skipIf_unk (c : Bool) (s : State) : (skipIf c s).unk = s.unk := rfl
@[simp] theorem skipIf_draws (c : Bool) (s : State) : (skipIf c s).draws = s.draws := rfl
@[simp] theorem getReg_skipIf (c : Bool) (s : State) (r : Nibble) : getReg (skipIf c s) r = getReg s r := rfl

/-! ### setStack -/

@[simp] theorem setStack_mem (s : State) (k : Vector Word 16) (n : Fin 17) : (setStack s k n).mem = s.mem := rfl
@[simp] theorem setStack_v (s : State) (k : Vector Word 16) (n : Fin 17) : (setStack s k n).v = s.v := rfl
@[simp] theorem setStack_i (s : State) (k : Vector Word 16) (n : Fin 17) : (setStack s k n).i = s.i := rfl
@[simp] theorem setStack_pc (s : State) (k : Vector Word 16) (n : Fin 17) : (setStack s k n).pc = s.pc := rfl
@[simp] theorem setStack_stack (s : State) (k : Vector Word 16) (n : Fin 17) : (setStack s k n).stack = k := rfl
@[simp] theorem setStack_sp (s : State) (k : Vector Word 16) (n : Fin 17) : (setStack s k n).sp = n := rfl
@[simp] theorem setStack_dt (s : State) (k : Vector Word 16) (n : Fin 17) : (setStack s k n).dt = s.dt := rfl
@[simp] theorem setStack_st (s : State) (k : Vector Word 16) (n : Fin 17) : (setStack s k n).st = s.st := rfl
@[simp] theorem setStack_disp (s : State) (k : Vector Word 16) (n : Fin 17) : (setStack s k n).disp = s.disp := rfl
@[simp] theorem setStack_keys (s : State) (k : Vector Word 16) (n : Fin 17) : (setStack s k n).keys = s.keys := rfl
@[simp] theorem setStack_redraw (s : State) (k : Vector Word 16) (n : Fin 17) : (setStack s k n).redraw = s.redraw := rfl
@[simp] theorem setStack_beep (s : State) (k : Vector Word 16) (n : Fin 17) : (setStack s k n).beep = s.beep := rfl
@[simp] theorem setStack_halt (s : State) (k : Vector Word 16) (n : Fin 17) : (setStack s k n).halt = s.halt := rfl
@[simp] theorem setStack_fcause (s : State) (k : Vector Word 16) (n : Fin 17) : (setStack s k n).fcause = s.fcause := rfl
@[simp] theorem setStack_finfo (s : State) (k : Vector Word 16) (n : Fin 17) : (setStack s k n).finfo = s.finfo := rfl
@[simp] theorem setStack_unk (s : State) (k : Vector Word 16) (n : Fin 17) : (setStack s k n).unk = s.unk := rfl
@[simp] theorem setStack_draws (s : State) (k : Vector Word 16) (n : Fin 17) : (setStack s k n).draws = s.draws := rfl
@[simp] theorem getReg_setStack (s : State) (k : Vector Word 16) (n : Fin 17) (r : Nibble) : getReg (setStack s k n) r = getReg s r := rfl

/-! ### showDisplay -/

@[simp] theorem showDisplay_mem (s : State) (d : Display) : (showDisplay s d).mem = s.mem := rfl
@[simp] theorem showDisplay_v (s : State) (d : Display) : (showDisplay s d).v = s.v := rfl
@[simp] theorem showDisplay_i (s : State) (d : Display) : (showDisplay s d).i = s.i := rfl
@[simp] theorem showDisplay_pc (s : State) (d : Display) : (showDisplay s d).pc = s.pc := rfl
@[simp] theorem showDisplay_stack (s : State) (d : Display) : (showDisplay s d).stack = s.stack := rfl
@[simp] theorem showDisplay_sp (s : State) (d : Display) : (showDisplay s d).sp = s.sp := rfl
@[simp] theorem showDisplay_dt (s : State) (d : Display) : (showDisplay s d).dt = s.dt := rfl
@[simp] theorem showDisplay_st (s : State) (d : Display) : (showDisplay s d).st = s.st := rfl
@[simp] theorem showDisplay_disp (s : State) (d : Display) : (showDisplay s d).disp = d := rfl
@[simp] theorem showDisplay_keys (s : State) (d : Display) : (showDisplay s d).keys = s.keys := rfl
@[simp] theorem showDisplay_redraw (s : State) (d : Display) : (showDisplay s d).redraw = true := rfl
@[simp] theorem showDisplay_beep (s : State) (d : Display) : (showDisplay s d).beep = s.beep := rfl
@[simp] theorem showDisplay_halt (s : State) (d : Display) : (showDisplay s d).halt = s.halt := rfl
@[simp] theorem showDisplay_fcause (s : State) (d : Display) : (showDisplay s d).fcause = s.fcause := rfl
@[simp] theorem showDisplay_finfo (s : State) (d : Display) : (showDisplay s d).finfo = s.finfo := rfl
@[simp] theorem showDisplay_unk (s : State) (d : Display) : (showDisplay s d).unk = s.unk := rfl
@[simp] theorem showDisplay_draws (s : State) (d : Display) : (showDisplay s d).draws = s.draws := rfl
@[simp] theorem getReg_showDisplay (s : State) (d : Display) (r : Nibble) : getReg (showDisplay s d) r = getReg s r := rfl

/-! ### consumeDraw -/

@[simp] theorem consumeDraw_mem (s : State) : (consumeDraw s).mem = s.mem := rfl
@[simp] theorem consumeDraw_v (s : State) : (consumeDraw s).v = s.v := rfl
@[simp] theorem consumeDraw_i (s : State) : (consumeDraw s).i = s.i := rfl
@[simp] theorem consumeDraw_pc (s : State) : (consumeDraw s).pc = s.pc := rfl
@[simp] theorem consumeDraw_stack (s : State) : (consumeDraw s).stack = s.stack := rfl
@[simp] theorem consumeDraw_sp (s : State) : (consumeDraw s).sp = s.sp := rfl
@[simp] theorem consumeDraw_dt (s : State) : (consumeDraw s).dt = s.dt := rfl
@[simp] theorem consumeDraw_st (s : State) : (consumeDraw s).st = s.st := rfl
@[simp] theorem consumeDraw_disp (s : State) : (consumeDraw s).disp = s.disp := rfl
@[simp] theorem consumeDraw_keys (s : State) : (consumeDraw s).keys = s.keys := rfl
@[simp] theorem consumeDraw_redraw (s : State) : (consumeDraw s).redraw = s.redraw := rfl
@[simp] theorem consumeDraw_beep (s : State) : (consumeDraw s).beep = s.beep := rfl
@[simp] theorem consumeDraw_halt (s : State) : (consumeDraw s).halt = s.halt := rfl
@[simp] theorem consumeDraw_fcause (s : State) : (consumeDraw s).fcause = s.fcause := rfl
@[simp] theorem consumeDraw_finfo (s : State) : (consumeDraw s).finfo = s.finfo := rfl
@[simp] theorem consumeDraw_unk (s : State) : (consumeDraw s).unk = s.unk := rfl
@[simp] theorem consumeDraw_draws (s : State) : (consumeDraw s).draws = s.draws + 1 := rfl
@[simp] theorem getReg_consumeDraw (s : State) (r : Nibble) : getReg (consumeDraw s) r = getReg s r := rfl

/-! ### raise -/

@[simp] theorem raise_mem (f : Fault) (s : State) : (raise f s).mem = s.mem := rfl
@[simp] theorem raise_v (f : Fault) (s : State) : (raise f s).v = s.v := rfl
@[simp] theorem raise_i (f : Fault) (s : State) : (raise f s).i = s.i := rfl
@[simp] theorem raise_pc (f : Fault) (s : State) : (raise f s).pc = s.pc := rfl
@[simp] theorem raise_stack (f : Fault) (s : State) : (raise f s).stack = s.stack := rfl
@[simp] theorem raise_sp (f : Fault) (s : State) : (raise f s).sp = s.sp := rfl
@[simp] theorem raise_dt (f : Fault) (s : State) : (raise f s).dt = s.dt := rfl
@[simp] theorem raise_st (f : Fault) (s : State) : (raise f s).st = s.st := rfl
@[simp] theorem raise_disp (f : Fault) (s : State) : (raise f s).disp = s.disp := rfl
@[simp] theorem raise_keys (f : Fault) (s : State) : (raise f s).keys = s.keys := rfl
@[simp] theorem raise_redraw (f : Fault) (s : State) : (raise f s).redraw = s.redraw := rfl
@[simp] theorem raise_beep (f : Fault) (s : State) : (raise f s).beep = s.beep := rfl
@[simp] theorem raise_halt (f : Fault) (s : State) : (raise f s).halt = true := rfl
@[simp] theorem raise_fcause (f : Fault) (s : State) : (raise f s).fcause = f.code := rfl
@[simp] theorem raise_finfo (f : Fault) (s : State) : (raise f s).finfo = f.info := rfl
@[simp] theorem raise_unk (f : Fault) (s : State) : (raise f s).unk = s.unk := rfl
@[simp] theorem raise_draws (f : Fault) (s : State) : (raise f s).draws = s.draws := rfl
@[simp] theorem getReg_raise (f : Fault) (s : State) (r : Nibble) : getReg (raise f s) r = getReg s r := rfl

/-! ### unknownOpcode -/

@[simp] theorem unknownOpcode_mem (s : State) : (unknownOpcode s).mem = s.mem := rfl
@[simp] theorem unknownOpcode_v (s : State) : (unknownOpcode s).v = s.v := rfl
@[simp] theorem unknownOpcode_i (s : State) : (unknownOpcode s).i = s.i := rfl
@[simp] theorem unknownOpcode_pc (s : State) : (unknownOpcode s).pc = s.pc + 2 := rfl
@[simp] theorem unknownOpcode_stack (s : State) : (unknownOpcode s).stack = s.stack := rfl
@[simp] theorem unknownOpcode_sp (s : State) : (unknownOpcode s).sp = s.sp := rfl
@[simp] theorem unknownOpcode_dt (s : State) : (unknownOpcode s).dt = s.dt := rfl
@[simp] theorem unknownOpcode_st (s : State) : (unknownOpcode s).st = s.st := rfl
@[simp] theorem unknownOpcode_disp (s : State) : (unknownOpcode s).disp = s.disp := rfl
@[simp] theorem unknownOpcode_keys (s : State) : (unknownOpcode s).keys = s.keys := rfl
@[simp] theorem unknownOpcode_redraw (s : State) : (unknownOpcode s).redraw = s.redraw := rfl
@[simp] theorem unknownOpcode_beep (s : State) : (unknownOpcode s).beep = s.beep := rfl
@[simp] theorem unknownOpcode_halt (s : State) : (unknownOpcode s).halt = s.halt := rfl
@[simp] theorem unknownOpcode_fcause (s : State) : (unknownOpcode s).fcause = s.fcause := rfl
@[simp] theorem unknownOpcode_finfo (s : State) : (unknownOpcode s).finfo = s.finfo := rfl
@[simp] theorem unknownOpcode_unk (s : State) : (unknownOpcode s).unk = true := rfl
@[simp] theorem unknownOpcode_draws (s : State) : (unknownOpcode s).draws = s.draws := rfl
@[simp] theorem getReg_unknownOpcode (s : State) (r : Nibble) : getReg (unknownOpcode s) r = getReg s r := rfl

/-! ### tick -/

@[simp] theorem tick_mem (s : State) : (tick s).mem = s.mem := rfl
@[simp] theorem tick_v (s : State) : (tick s).v = s.v := rfl
@[simp] theorem tick_i (s : State) : (tick s).i = s.i := rfl
@[simp] theorem tick_pc (s : State) : (tick s).pc = s.pc := rfl
@[simp] theorem tick_stack (s : State) : (tick s).stack = s.stack := rfl
@[simp] theorem tick_sp (s : State) : (tick s).sp = s.sp := rfl
@[simp] theorem tick_dt (s : State) : (tick s).dt = countDown s.dt := rfl
@[simp] theorem tick_st (s : State) : (tick s).st = countDown s.st := rfl
@[simp] theorem tick_disp (s : State) : (tick s).disp = s.disp := rfl
@[simp] theorem tick_keys (s : State) : (tick s).keys = s.keys := rfl
@[simp] theorem tick_redraw (s : State) : (tick s).redraw = s.redraw := rfl
@[simp] theorem tick_beep (s : State) : (tick s).beep = (s.beep || s.st == 1) := rfl
@[simp] theorem tick_halt (s : State) : (tick s).halt = s.halt := rfl
@[simp] theorem tick_fcause (s : State) : (tick s).fcause = s.fcause := rfl
@[simp] theorem tick_finfo (s : State) : (tick s).finfo = s.finfo := rfl
@[simp] theorem tick_unk (s : State) : (tick s).unk = s.unk := rfl
@[simp] theorem tick_draws (s : State) : (tick s).draws = s.draws := rfl
@[simp] theorem getReg_tick (s : State) (r : Nibble) : getReg (tick s) r = getReg s r := rfl

/-! ### hostReset -/

@[simp] theorem hostReset_mem (s : State) : (hostReset s).mem = [] := rfl
@[simp] theorem hostReset_v (s : State) : (hostReset s).v = Vector.replicate 16 0 := rfl
@[simp] theorem hostReset_i (s : State) : (hostReset s).i = 0 := rfl
@[simp] theorem hostReset_pc (s : State) : (hostReset s).pc = 0x0200 := rfl
@[simp] theorem hostReset_stack (s : State) : (hostReset s).stack = Vector.replicate 16 0 := rfl
@[simp] theorem hostReset_sp (s : State) : (hostReset s).sp = 0 := rfl
@[simp] theorem hostReset_dt (s : State) : (hostReset s).dt = 0 := rfl
@[simp] theorem hostReset_st (s : State) : (hostReset s).st = 0 := rfl
@[simp] theorem hostReset_disp (s : State) : (hostReset s).disp = 0 := rfl
@[simp] theorem hostReset_keys (s : State) : (hostReset s).keys = 0 := rfl
@[simp] theorem hostReset_redraw (s : State) : (hostReset s).redraw = false := rfl
@[simp] theorem hostReset_beep (s : State) : (hostReset s).beep = false := rfl
@[simp] theorem hostReset_halt (s : State) : (hostReset s).halt = false := rfl
@[simp] theorem hostReset_fcause (s : State) : (hostReset s).fcause = 0 := rfl
@[simp] theorem hostReset_finfo (s : State) : (hostReset s).finfo = 0 := rfl
@[simp] theorem hostReset_unk (s : State) : (hostReset s).unk = false := rfl
@[simp] theorem hostReset_draws (s : State) : (hostReset s).draws = s.draws := rfl

/-! ### hostSetKeys -/

@[simp] theorem hostSetKeys_mem (k : BitVec 16) (s : State) : (hostSetKeys k s).mem = s.mem := rfl
@[simp] theorem hostSetKeys_v (k : BitVec 16) (s : State) : (hostSetKeys k s).v = s.v := rfl
@[simp] theorem hostSetKeys_i (k : BitVec 16) (s : State) : (hostSetKeys k s).i = s.i := rfl
@[simp] theorem hostSetKeys_pc (k : BitVec 16) (s : State) : (hostSetKeys k s).pc = s.pc := rfl
@[simp] theorem hostSetKeys_stack (k : BitVec 16) (s : State) : (hostSetKeys k s).stack = s.stack := rfl
@[simp] theorem hostSetKeys_sp (k : BitVec 16) (s : State) : (hostSetKeys k s).sp = s.sp := rfl
@[simp] theorem hostSetKeys_dt (k : BitVec 16) (s : State) : (hostSetKeys k s).dt = s.dt := rfl
@[simp] theorem hostSetKeys_st (k : BitVec 16) (s : State) : (hostSetKeys k s).st = s.st := rfl
@[simp] theorem hostSetKeys_disp (k : BitVec 16) (s : State) : (hostSetKeys k s).disp = s.disp := rfl
@[simp] theorem hostSetKeys_keys (k : BitVec 16) (s : State) : (hostSetKeys k s).keys = k := rfl
@[simp] theorem hostSetKeys_redraw (k : BitVec 16) (s : State) : (hostSetKeys k s).redraw = s.redraw := rfl
@[simp] theorem hostSetKeys_beep (k : BitVec 16) (s : State) : (hostSetKeys k s).beep = s.beep := rfl
@[simp] theorem hostSetKeys_halt (k : BitVec 16) (s : State) : (hostSetKeys k s).halt = s.halt := rfl
@[simp] theorem hostSetKeys_fcause (k : BitVec 16) (s : State) : (hostSetKeys k s).fcause = s.fcause := rfl
@[simp] theorem hostSetKeys_finfo (k : BitVec 16) (s : State) : (hostSetKeys k s).finfo = s.finfo := rfl
@[simp] theorem hostSetKeys_unk (k : BitVec 16) (s : State) : (hostSetKeys k s).unk = s.unk := rfl
@[simp] theorem hostSetKeys_draws (k : BitVec 16) (s : State) : (hostSetKeys k s).draws = s.draws := rfl
@[simp] theorem getReg_hostSetKeys (k : BitVec 16) (s : State) (r : Nibble) : getReg (hostSetKeys k s) r = getReg s r := rfl

/-! ### hostClearRedraw -/

@[simp] theorem hostClearRedraw_mem (s : State) : (hostClearRedraw s).mem = s.mem := rfl
@[simp] theorem hostClearRedraw_v (s : State) : (hostClearRedraw s).v = s.v := rfl
@[simp] theorem hostClearRedraw_i (s : State) : (hostClearRedraw s).i = s.i := rfl
@[simp] theorem hostClearRedraw_pc (s : State) : (hostClearRedraw s).pc = s.pc := rfl
@[simp] theorem hostClearRedraw_stack (s : State) : (hostClearRedraw s).stack = s.stack := rfl
@[simp] theorem hostClearRedraw_sp (s : State) : (hostClearRedraw s).sp = s.sp := rfl
@[simp] theorem hostClearRedraw_dt (s : State) : (hostClearRedraw s).dt = s.dt := rfl
@[simp] theorem hostClearRedraw_st (s : State) : (hostClearRedraw s).st = s.st := rfl
@[simp] theorem hostClearRedraw_disp (s : State) : (hostClearRedraw s).disp = s.disp := rfl
@[simp] theorem hostClearRedraw_keys (s : State) : (hostClearRedraw s).keys = s.keys := rfl
@[simp] theorem hostClearRedraw_redraw (s : State) : (hostClearRedraw s).redraw = false := rfl
@[simp] theorem hostClearRedraw_beep (s : State) : (hostClearRedraw s).beep = s.beep := rfl
@[simp] theorem hostClearRedraw_halt (s : State) : (hostClearRedraw s).halt = s.halt := rfl
@[simp] theorem hostClearRedraw_fcause (s : State) : (hostClearRedraw s).fcause = s.fcause := rfl
@[simp] theorem hostClearRedraw_finfo (s : State) : (hostClearRedraw s).finfo = s.finfo := rfl
@[simp] theorem hostClearRedraw_unk (s : State) : (hostClearRedraw s).unk = s.unk := rfl
@[simp] theorem hostClearRedraw_draws (s : State) : (hostClearRedraw s).draws = s.draws := rfl
@[simp] theorem getReg_hostClearRedraw (s : State) (r : Nibble) : getReg (hostClearRedraw s) r = getReg s r := rfl

/-! ### hostClearBeep -/

@[simp] theorem hostClearBeep_mem (s : State) : (hostClearBeep s).mem = s.mem := rfl
@[simp] theorem hostClearBeep_v (s : State) : (hostClearBeep s).v = s.v := rfl
@[simp] theorem hostClearBeep_i (s : State) : (hostClearBeep s).i = s.i := rfl
@[simp] theorem hostClearBeep_pc (s : State) : (hostClearBeep s).pc = s.pc := rfl
@[simp] theorem hostClearBeep_stack (s : State) : (hostClearBeep s).stack = s.stack := rfl
@[simp] theorem hostClearBeep_sp (s : State) : (hostClearBeep s).sp = s.sp := rfl
@[simp] theorem hostClearBeep_dt (s : State) : (hostClearBeep s).dt = s.dt := rfl
@[simp] theorem hostClearBeep_st (s : State) : (hostClearBeep s).st = s.st := rfl
@[simp] theorem hostClearBeep_disp (s : State) : (hostClearBeep s).disp = s.disp := rfl
@[simp] theorem hostClearBeep_keys (s : State) : (hostClearBeep s).keys = s.keys := rfl
@[simp] theorem hostClearBeep_redraw (s : State) : (hostClearBeep s).redraw = s.redraw := rfl
@[simp] theorem hostClearBeep_beep (s : State) : (hostClearBeep s).beep = false := rfl
@[simp] theorem hostClearBeep_halt (s : State) : (hostClearBeep s).halt = s.halt := rfl
@[simp] theorem hostClearBeep_fcause (s : State) : (hostClearBeep s).fcause = s.fcause := rfl
@[simp] theorem hostClearBeep_finfo (s : State) : (hostClearBeep s).finfo = s.finfo := rfl
@[simp] theorem hostClearBeep_unk (s : State) : (hostClearBeep s).unk = s.unk := rfl
@[simp] theorem hostClearBeep_draws (s : State) : (hostClearBeep s).draws = s.draws := rfl
@[simp] theorem getReg_hostClearBeep (s : State) (r : Nibble) : getReg (hostClearBeep s) r = getReg s r := rfl

/-! ### Registers -/

@[simp] theorem getReg_setReg_same (s : State) (x : Nibble) (b : Byte) : getReg (setReg s x b) x = b := by
  simp [getReg, setReg]

theorem getReg_setReg (s : State) (x y : Nibble) (b : Byte) :
    getReg (setReg s x b) y = if y = x then b else getReg s y := by
  by_cases h : y = x
  · subst h; simp
  · have hn : x.toNat ≠ y.toNat := fun e => h (BitVec.eq_of_toNat_eq e.symm)
    simp [getReg, setReg, h, hn]

@[simp] theorem getReg_setReg_of_ne (s : State) (x y : Nibble) (b : Byte) (h : y ≠ x) :
    getReg (setReg s x b) y = getReg s y := by
  simp [getReg_setReg, h]

/-- Two register files that read alike are equal. -/
theorem regs_ext (s t : State) (h : ∀ x, getReg t x = getReg s x) : t.v = s.v := by
  apply Vector.ext
  intro k hk
  have hx := h (BitVec.ofNat 4 k)
  simpa [getReg, Nat.mod_eq_of_lt hk] using hx

end Sys2Proof.Machine
end

