-- ==== Sys2Proof/Laws/Ops.lean ====
section
/-! SUPPORT. For each shared operation, everything it can do, said once; the provers cite these and unfold nothing. -/

namespace Sys2Proof.Machine

/-! ### The call stack -/

theorem pushPc_ok (s : State) (h : s.sp.val < 16) :
    pushPc s = .ok (setStack s (s.stack.set s.sp.val s.pc h) ⟨s.sp.val + 1, Nat.succ_lt_succ h⟩) := dif_pos h

theorem pushPc_full (s : State) (h : s.sp.val = 16) : pushPc s = .error .stackOverflow := dif_neg (by omega)

theorem popEntry_empty (s : State) (h : s.sp.val = 0) : popEntry s = .error .stackUnderflow := by
  have : s.sp = ⟨0, by omega⟩ := Fin.ext h
  simp [popEntry, this]

theorem popEntry_ok (s : State) (n : Nat) (hn : n < 16) (h : s.sp.val = n + 1) :
    popEntry s = .ok (s.stack[n], setStack s s.stack ⟨n, by omega⟩) := by
  have : s.sp = ⟨n + 1, by omega⟩ := Fin.ext h
  simp only [popEntry, this]

/-! ### Timers, fetch, keys -/

/-- The tick takes one from a timer that is not 0 and leaves a timer that is (R85). -/
theorem countDown_toNat (b : Byte) : (countDown b).toNat = b.toNat - 1 := by
  unfold countDown
  split
  · rename_i h; simp [h]
  · rename_i h
    have : b.toNat ≠ 0 := fun e => h (BitVec.eq_of_toNat_eq e)
    have hb := b.isLt
    rw [BitVec.toNat_sub]
    simp
    omega

theorem fetch_ok (s : State) (h : s.pc.toNat + 1 < Config.memSize) :
    fetch s = .ok (wordOfBytes (Memory.read s.mem s.pc.toNat) (Memory.read s.mem (s.pc.toNat + 1))) := by
  rw [fetch, if_pos (Or.inr (by omega))]

theorem fetch_error (s : State) (h : Config.memSize ≤ s.pc.toNat + 1) :
    fetch s = .error (.outOfBoundsMemoryAccess (max s.pc.toNat Config.memSize)) := by
  rw [fetch, if_neg (by omega), runFault]

theorem keyOperand_ok (b : Byte) (h : b.toNat < 16) : keyOperand b = .ok b.toNat := if_pos h

theorem keyOperand_error (b : Byte) (h : 16 ≤ b.toNat) : keyOperand b = .error (.keyIndexOutOfRange b) :=
  if_neg (Nat.not_lt.mpr h)

/-- The scan of the first n keys gives the highest one down among them, or none. -/
theorem scan_spec (s : State) (n : Nat) :
    match (List.range n).foldl (fun found i => if keyDown s i then some i else found) none with
    | some k => k < n ∧ keyDown s k = true ∧ ∀ j, k < j → j < n → keyDown s j = false
    | none => ∀ j, j < n → keyDown s j = false := by
  induction n with
  | zero => intro j hj; omega
  | succ n ih =>
    rw [List.range_succ, List.foldl_append]
    simp only [List.foldl_cons, List.foldl_nil]
    by_cases hn : keyDown s n = true
    · rw [if_pos hn]
      exact ⟨Nat.lt_succ_self n, hn, fun j h1 h2 => by omega⟩
    · rw [if_neg hn]
      have hf : keyDown s n = false := by simpa using hn
      split at ih
      · refine ⟨by omega, ih.2.1, fun j h1 h2 => ?_⟩
        rcases Nat.lt_succ_iff_lt_or_eq.mp h2 with h | h
        · exact ih.2.2 j h1 h
        · exact h ▸ hf
      · intro j hj
        rcases Nat.lt_succ_iff_lt_or_eq.mp hj with h | h
        · exact ih j h
        · exact h ▸ hf

/-- The key scan finds k exactly when k is down and no higher key is (R162). -/
theorem scanKeys_some (s : State) (k : Nat) (hk : k < 16) (hd : keyDown s k = true)
    (hh : ∀ j, k < j → j < 16 → keyDown s j = false) : scanKeys s = some k := by
  have h := scan_spec s 16
  unfold scanKeys
  split at h <;> rename_i heq
  · rename_i k'
    rw [heq]
    obtain ⟨h1, h2, h3⟩ := h
    rcases Nat.lt_trichotomy k k' with hlt | he | hlt
    · rw [hh k' hlt h1] at h2; exact absurd h2 (by decide)
    · rw [he]
    · rw [h3 k hlt hk] at hd; exact absurd hd (by decide)
  · rw [h k hk] at hd; exact absurd hd (by decide)

theorem scanKeys_none (s : State) (h : ∀ j, j < 16 → keyDown s j = false) : scanKeys s = none := by
  have hs := scan_spec s 16
  unfold scanKeys
  split at hs <;> rename_i heq
  · rename_i k
    rw [h k hs.1] at hs
    exact absurd hs.2.1 (by decide)
  · exact heq

/-- What the scan finds is a key that exists. -/
theorem scanKeys_lt (s : State) (k : Nat) (h : scanKeys s = some k) : k < 16 := by
  have hs := scan_spec s 16
  have h' : (List.range 16).foldl (fun found i => if keyDown s i then some i else found) none = some k := h
  rw [h'] at hs
  exact hs.1

/-! ### Register ranges (R144, R145) -/

@[simp] theorem storedRegs_length (v : Regs) (x : Nibble) : (storedRegs v x).length = x.toNat + 1 := by
  have := x.isLt
  simp [storedRegs]
  omega

theorem storedRegs_getElem (s : State) (x k : Nibble) (h : k.toNat < (storedRegs s.v x).length) :
    (storedRegs s.v x)[k.toNat] = getReg s k := by
  simp [storedRegs, getReg]

theorem loadRegs_getElem (v : Regs) (first : Nat) (bytes : List Byte) (k : Nat) (hk : k < 16) :
    (loadRegs v first bytes)[k] = if h : first ≤ k ∧ k - first < bytes.length then bytes[k - first] else v[k] := by
  induction bytes generalizing v first with
  | nil => simp [loadRegs]
  | cons b rest ih =>
    rw [loadRegs, ih]
    by_cases h1 : first + 1 ≤ k ∧ k - (first + 1) < rest.length
    · have h2 : first ≤ k ∧ k - first < (b :: rest).length := by simp; omega
      rw [dif_pos h1, dif_pos h2]
      have : k - first = k - (first + 1) + 1 := by omega
      simp [this]
    · rw [dif_neg h1]
      by_cases he : first = k
      · subst he
        simp
      · have h2 : ¬(first ≤ k ∧ k - first < (b :: rest).length) := by simp; simp at h1; omega
        rw [dif_neg h2, Vector.getElem_setIfInBounds_ne _ he]

/-- A register after a load of a range: the byte for it, or its old value past the range. -/
theorem getReg_loadRegs (s : State) (bytes : List Byte) (x : Nibble) :
    getReg (setRegs s (loadRegs s.v 0 bytes)) x =
      if h : x.toNat < bytes.length then bytes[x.toNat] else getReg s x := by
  unfold getReg setRegs
  rw [loadRegs_getElem s.v 0 bytes x.toNat x.isLt]
  by_cases h : x.toNat < bytes.length
  · rw [dif_pos ⟨Nat.zero_le _, h⟩, dif_pos h]
    rfl
  · rw [dif_neg (fun hc => h hc.2), dif_neg h]

/-! ### Flags -/

@[simp] theorem getReg_setResultThenFlag (s : State) (x y : Nibble) (r f : Byte) :
    getReg (setResultThenFlag s x r f) y = if y = vf then f else if y = x then r else getReg s y := by
  simp only [setResultThenFlag, getReg_setReg]

/-! ### Sprites and the blit (R150, R152) -/

theorem mem_rowPixels (x0 y0 r : Nat) (row : Byte) (idx : Nat) :
    idx ∈ rowPixels x0 y0 r row ↔ ∃ c, c < 8 ∧ spriteBit row c = true ∧ idx = pixelIndex x0 y0 r c := by
  simp only [rowPixels, List.mem_map, List.mem_filter, List.mem_range]
  exact ⟨fun ⟨c, ⟨hc, hb⟩, e⟩ => ⟨c, hc, hb, e.symm⟩, fun ⟨c, hc, hb, e⟩ => ⟨c, ⟨hc, hb⟩, e.symm⟩⟩

/-- The pixels of a sprite are those of its set bits. -/
theorem mem_spritePixels (x0 y0 r : Nat) (rows : List Byte) (idx : Nat) :
    idx ∈ spritePixels x0 y0 r rows ↔
      ∃ k c, ∃ h : k < rows.length, c < 8 ∧ spriteBit rows[k] c = true ∧ idx = pixelIndex x0 y0 (r + k) c := by
  induction rows generalizing r with
  | nil => simp [spritePixels]
  | cons row rest ih =>
    rw [spritePixels, List.mem_append, mem_rowPixels, ih]
    constructor
    · rintro (⟨c, hc, hb, e⟩ | ⟨k, c, hk, hc, hb, e⟩)
      · exact ⟨0, c, by simp, hc, by simpa using hb, by simpa using e⟩
      · exact ⟨k + 1, c, by simpa using hk, hc, by simpa using hb, by rw [e]; congr 1; omega⟩
    · rintro ⟨k, c, hk, hc, hb, e⟩
      cases k with
      | zero => exact .inl ⟨c, hc, by simpa using hb, by simpa using e⟩
      | succ k =>
        exact .inr ⟨k, c, by simpa using hk, hc, by simpa using hb, by rw [e]; congr 1; omega⟩

/-- Within one draw no two set bits share a pixel: rows are 64 apart and a row spans 8 (R150). -/
theorem spritePixels_nodup (x0 y0 r : Nat) (rows : List Byte) : (spritePixels x0 y0 r rows).Nodup := by
  induction rows generalizing r with
  | nil => exact List.nodup_nil
  | cons row rest ih =>
    rw [spritePixels, List.nodup_append]
    refine ⟨?_, ih (r + 1), ?_⟩
    · rw [rowPixels]
      refine List.Nodup.map (fun a b h => ?_) (List.nodup_range.filter _)
      simp only [pixelIndex, Config.dispWidth] at h
      omega
    · intro a ha b hb e
      subst e
      obtain ⟨c, hc, -, e1⟩ := (mem_rowPixels _ _ _ _ _).mp ha
      obtain ⟨k, c', -, hc', -, e2⟩ := (mem_spritePixels _ _ _ _ _).mp hb
      simp only [pixelIndex, Config.dispWidth] at e1 e2
      omega

@[simp] theorem pixel_togglePixel (d : Display) (idx k : Nat) (hk : k < 2048) :
    pixel (togglePixel d idx) k = (pixel d k ^^ decide (idx = k)) := by
  simp [pixel, togglePixel, hk, eq_comm]

theorem blit_fold (d : Display) (f : Bool) (pixels : List Nat) (hn : pixels.Nodup)
    (hr : ∀ idx ∈ pixels, idx < 2048) :
    (∀ k, k < 2048 → pixel (pixels.foldl (blitPixel .any) (d, f)).1 k = (pixel d k ^^ decide (k ∈ pixels))) ∧
      (pixels.foldl (blitPixel .any) (d, f)).2 = (f || pixels.any (pixel d)) := by
  induction pixels generalizing d f with
  | nil => simp
  | cons a rest ih =>
    obtain ⟨ha, hn'⟩ := List.nodup_cons.mp hn
    have := ih (togglePixel d a) (f || pixel d a) hn' (fun idx h => hr idx (List.mem_cons_of_mem _ h))
    rw [List.foldl_cons]
    refine ⟨fun k hk => ?_, ?_⟩
    · have h1 := this.1 k hk
      simp only [blitPixel] at h1 ⊢
      rw [h1, pixel_togglePixel d a k hk]
      by_cases e : a = k
      · subst e; simp [ha]
      · have : k ≠ a := fun h => e h.symm
        simp [e, this]
    · have h2 := this.2
      simp only [blitPixel] at h2 ⊢
      rw [h2, List.any_cons, Bool.or_assoc]
      congr 2
      rw [Bool.eq_iff_iff, List.any_eq_true, List.any_eq_true]
      refine exists_congr fun b => and_congr_right fun hb => ?_
      have hne : a ≠ b := fun e => ha (e ▸ hb)
      rw [pixel_togglePixel d a b (hr b (List.mem_cons_of_mem _ hb))]
      simp [hne]

/-- The blit toggles exactly the pixels of the sprite (R152). -/
theorem pixel_blit (d : Display) (pixels : List Nat) (hn : pixels.Nodup) (hr : ∀ idx ∈ pixels, idx < 2048)
    (k : Nat) (hk : k < 2048) : pixel (blit .any d pixels).1 k = (pixel d k ^^ decide (k ∈ pixels)) :=
  (blit_fold d false pixels hn hr).1 k hk

/-- The collision flag: some pixel of the sprite was lit before (R152, DRW_COLLISION = any). -/
theorem blit_collision (d : Display) (pixels : List Nat) (hn : pixels.Nodup) (hr : ∀ idx ∈ pixels, idx < 2048) :
    (blit .any d pixels).2 = pixels.any (pixel d) := by
  simpa [blit] using (blit_fold d false pixels hn hr).2

/-- Two displays whose pixels agree are equal. -/
theorem display_ext (d e : Display) (h : ∀ k, k < 2048 → pixel d k = pixel e k) : d = e :=
  BitVec.eq_of_getLsbD_eq h

/-! ### The checked sprite -/

theorem spriteChecked_memory (s : State) (x0 y0 count : Nat) (h0 : count ≠ 0)
    (h : Config.memSize < s.i.toNat + count) :
    spriteChecked s x0 y0 count = .error (.outOfBoundsMemoryAccess (max s.i.toNat Config.memSize)) := by
  simp only [spriteChecked, indexAddress, Nat.add_zero, readChecked_error _ _ _ h0 h]

theorem spriteChecked_display (s : State) (x0 y0 count idx : Nat)
    (h : count = 0 ∨ s.i.toNat + count ≤ Config.memSize)
    (hf : (spritePixels x0 y0 0 (Memory.readRun s.mem s.i.toNat count)).find?
      (fun idx => decide (Config.dispSize ≤ idx)) = some idx) :
    spriteChecked s x0 y0 count = .error (.outOfBoundsDisplayAccess idx) := by
  simp only [spriteChecked, indexAddress, Nat.add_zero, readChecked_ok _ _ _ h, hf]

theorem spriteChecked_ok (s : State) (x0 y0 count : Nat)
    (h : count = 0 ∨ s.i.toNat + count ≤ Config.memSize)
    (hf : ∀ idx ∈ spritePixels x0 y0 0 (Memory.readRun s.mem s.i.toNat count), idx < Config.dispSize) :
    spriteChecked s x0 y0 count = .ok (spritePixels x0 y0 0 (Memory.readRun s.mem s.i.toNat count)) := by
  have : (spritePixels x0 y0 0 (Memory.readRun s.mem s.i.toNat count)).find?
      (fun idx => decide (Config.dispSize ≤ idx)) = none := by
    rw [List.find?_eq_none]
    intro idx hi
    simpa using hf idx hi
  simp only [spriteChecked, indexAddress, Nat.add_zero, readChecked_ok _ _ _ h, this]

end Sys2Proof.Machine
end

