-- ==== Sys2Proof/Laws/Exec.lean ====
section
/-! SUPPORT. What the execute phase and the Step can do, said once over all instructions: the inversion lemmas that every
invariant cites. -/

namespace Sys2Proof.Machine

/-- The arguments a fault is raised with (60_exceptions.md R170, column info word). -/
def Fault.InRange (f : Fault) : Prop :=
  match f with
  | .stackOverflow | .stackUnderflow => True
  | .outOfBoundsMemoryAccess a => 4096 ≤ a ∧ a < 65536
  | .outOfBoundsDisplayAccess idx => 2048 ≤ idx ∧ idx ≤ 17478
  | .keyIndexOutOfRange k => 16 ≤ k.toNat

/-- An instruction that raises no fault leaves the fault status, the keys and BEEP alone, clears neither REDRAW nor UNK, and
keeps memory canonical. -/
def Completes (s t : State) : Prop :=
  t.halt = s.halt ∧ t.fcause = s.fcause ∧ t.finfo = s.finfo ∧ t.keys = s.keys ∧ t.beep = s.beep ∧
    (s.redraw = true → t.redraw = true) ∧ (s.unk = true → t.unk = true) ∧ (Memory.wf s.mem → Memory.wf t.mem)

/-- The execute phase always answers a next state: the instruction's own, or the fault taken in the state at the start. -/
def ExecCase (i : Instr) (s : State) : Prop :=
  ∃ t, exec i s = .next t ∧ (Completes s t ∨ ∃ f : Fault, f.InRange ∧ t = raise f s)

theorem execCase_completes (i : Instr) (s t : State) (h : exec i s = .next t) (hc : Completes s t) : ExecCase i s :=
  ⟨t, h, .inl hc⟩

theorem execCase_orRaise (i : Instr) (s : State) (r : Except Fault State) (h : exec i s = orRaise s r)
    (hok : ∀ t, r = .ok t → Completes s t) (herr : ∀ f, r = .error f → f.InRange) : ExecCase i s := by
  cases r with
  | ok t => exact ⟨t, h, .inl (hok t rfl)⟩
  | error f => exact ⟨raise f s, h, .inr ⟨f, herr f rfl, rfl⟩⟩

theorem runFault_inRange (base : Nat) (h : base < 65536) : (runFault base).InRange := by
  simp only [runFault, Fault.InRange, Config.memSize]
  omega

theorem writeChecked_cases (m : Memory) (base : Nat) (bytes : List Byte) :
    (∃ m', writeChecked m base bytes = .ok m') ∨ writeChecked m base bytes = .error (runFault base) := by
  unfold writeChecked
  split
  · exact .inl ⟨_, rfl⟩
  · exact .inr rfl

theorem readChecked_cases (m : Memory) (base count : Nat) :
    (runInMemory base count ∧ readChecked m base count = .ok (Memory.readRun m base count)) ∨
      readChecked m base count = .error (runFault base) := by
  unfold readChecked
  split
  · rename_i h; exact .inl ⟨h, rfl⟩
  · exact .inr rfl

theorem storeAtIndex_cases (bytes : List Byte) (k : Nat) (s : State) :
    (∃ m, writeChecked s.mem s.i.toNat bytes = .ok m ∧
      storeAtIndex bytes k s = .ok (advance (setIndex (setMem s m) (BitVec.ofNat 16 (s.i.toNat + k))))) ∨
      storeAtIndex bytes k s = .error (runFault s.i.toNat) := by
  rcases writeChecked_cases s.mem s.i.toNat bytes with ⟨m, h⟩ | h
  · exact .inl ⟨m, h, by simp [storeAtIndex, indexAddress, h]⟩
  · exact .inr (by simp [storeAtIndex, indexAddress, h])

theorem loadAtIndex_cases (count : Nat) (s : State) :
    loadAtIndex count s = .ok (advance (setIndex (setRegs s (loadRegs s.v 0 (Memory.readRun s.mem s.i.toNat count)))
      (BitVec.ofNat 16 (s.i.toNat + count)))) ∨ loadAtIndex count s = .error (runFault s.i.toNat) := by
  rcases readChecked_cases s.mem s.i.toNat count with ⟨-, h⟩ | h
  · exact .inl (by simp [loadAtIndex, indexAddress, h])
  · exact .inr (by simp [loadAtIndex, indexAddress, h])

theorem spriteChecked_cases (s : State) (x0 y0 count : Nat) :
    (∃ pixels, spriteChecked s x0 y0 count = .ok pixels) ∨
      spriteChecked s x0 y0 count = .error (runFault s.i.toNat) ∨
      ∃ idx ∈ spritePixels x0 y0 0 (Memory.readRun s.mem s.i.toNat count),
        2048 ≤ idx ∧ spriteChecked s x0 y0 count = .error (.outOfBoundsDisplayAccess idx) := by
  rcases readChecked_cases s.mem s.i.toNat count with ⟨-, h⟩ | h
  · cases hf : (spritePixels x0 y0 0 (Memory.readRun s.mem s.i.toNat count)).find?
      (fun idx => decide (Config.dispSize ≤ idx)) with
    | none =>
      refine .inl ⟨spritePixels x0 y0 0 (Memory.readRun s.mem s.i.toNat count), ?_⟩
      simp only [spriteChecked, indexAddress, Nat.add_zero, h, hf]
    | some idx =>
      refine .inr (.inr ⟨idx, List.mem_of_find?_eq_some hf, ?_, ?_⟩)
      · simpa [Config.dispSize] using List.find?_some hf
      · simp only [spriteChecked, indexAddress, Nat.add_zero, h, hf]
  · exact .inr (.inl (by simp only [spriteChecked, indexAddress, Nat.add_zero, h]))

theorem execCase_ret (s : State) : ExecCase .ret s := by
  refine execCase_orRaise .ret s (returnFromCall s) rfl (fun t h => ?_) (fun f h => ?_)
  · simp only [returnFromCall] at h
    split at h
    · rename_i entry u hp
      unfold popEntry at hp
      split at hp
      · exact nomatch hp
      · obtain ⟨-, rfl⟩ := Prod.mk.inj (Except.ok.inj hp)
        exact Except.ok.inj h ▸ ⟨rfl, rfl, rfl, rfl, rfl, id, id, id⟩
    · exact nomatch h
  · simp only [returnFromCall] at h
    split at h
    · exact nomatch h
    · rename_i g hp
      unfold popEntry at hp
      split at hp
      · exact Except.error.inj h ▸ Except.error.inj hp ▸ trivial
      · exact nomatch hp

theorem execCase_call (nnn : Addr) (s : State) : ExecCase (.call nnn) s := by
  by_cases hs : s.sp.val < 16
  · refine execCase_completes _ s (setPc (setStack s (s.stack.set s.sp.val s.pc hs) ⟨s.sp.val + 1, Nat.succ_lt_succ hs⟩)
      (addrOperand nnn)) ?_ ⟨rfl, rfl, rfl, rfl, rfl, id, id, id⟩
    simp only [exec, execCall, callAddress, pushPc_ok s hs, orRaise]
  · have : s.sp.val = 16 := by omega
    refine ⟨raise .stackOverflow s, ?_, .inr ⟨.stackOverflow, trivial, rfl⟩⟩
    simp only [exec, execCall, callAddress, pushPc_full s this, orRaise]

theorem execCase_store (i : Instr) (s : State) (bytes : List Byte) (k : Nat)
    (h : exec i s = orRaise s (storeAtIndex bytes k s)) : ExecCase i s := by
  rcases storeAtIndex_cases bytes k s with ⟨m, hm, e⟩ | e <;> rw [e] at h
  · exact execCase_completes i s _ h
      ⟨rfl, rfl, rfl, rfl, rfl, id, id, fun hw => writeChecked_wf _ _ _ _ hw hm⟩
  · exact ⟨_, h, .inr ⟨_, runFault_inRange _ s.i.isLt, rfl⟩⟩

theorem execCase_ldVxMem (x : Nibble) (s : State) : ExecCase (.ldVxMem x) s := by
  have h : exec (.ldVxMem x) s = orRaise s (loadAtIndex (rangeLength x) s) := rfl
  rcases loadAtIndex_cases (rangeLength x) s with e | e <;> rw [e] at h
  · exact execCase_completes _ s _ h ⟨rfl, rfl, rfl, rfl, rfl, id, id, id⟩
  · exact ⟨_, h, .inr ⟨_, runFault_inRange _ s.i.isLt, rfl⟩⟩

theorem execCase_key (i : Instr) (x : Nibble) (wanted : Bool) (s : State)
    (h : exec i s = orRaise s (skipOnKey x wanted s)) : ExecCase i s := by
  by_cases hk : (getReg s x).toNat < 16
  · simp only [skipOnKey, keyOperand_ok _ hk, Except.map, orRaise] at h
    exact execCase_completes i s _ h ⟨rfl, rfl, rfl, rfl, rfl, id, id, id⟩
  · simp only [skipOnKey, keyOperand_error _ (Nat.le_of_not_lt hk), Except.map, orRaise] at h
    exact ⟨_, h, .inr ⟨.keyIndexOutOfRange (getReg s x), Nat.le_of_not_lt hk, rfl⟩⟩

theorem execCase_ldVxK (x : Nibble) (s : State) : ExecCase (.ldVxK x) s := by
  cases h : scanKeys s with
  | some k =>
    exact execCase_completes _ s (advance (setReg s x (BitVec.ofNat 8 k))) (by simp only [exec, execLdVxK, h])
      ⟨rfl, rfl, rfl, rfl, rfl, id, id, id⟩
  | none =>
    exact execCase_completes _ s s (by simp only [exec, execLdVxK, h]) ⟨rfl, rfl, rfl, rfl, rfl, id, id, id⟩

theorem execCase_drw (x y n : Nibble) (s : State) : ExecCase (.drw x y n) s := by
  have h : exec (.drw x y n) s = orRaise s
      ((spriteChecked s (getReg s x).toNat (getReg s y).toNat n.toNat).map (fun pixels => drawPixels pixels s)) := rfl
  rcases spriteChecked_cases s (getReg s x).toNat (getReg s y).toNat n.toNat with ⟨p, e⟩ | e | ⟨idx, hi, hr, e⟩ <;>
    rw [e] at h
  · exact execCase_completes _ s _ h ⟨rfl, rfl, rfl, rfl, rfl, fun _ => rfl, id, id⟩
  · exact ⟨_, h, .inr ⟨_, runFault_inRange _ s.i.isLt, rfl⟩⟩
  · refine ⟨_, h, .inr ⟨.outOfBoundsDisplayAccess idx, ⟨hr, ?_⟩, rfl⟩⟩
    obtain ⟨k, c, hk, hc, -, e⟩ := (mem_spritePixels _ _ _ _ _).mp hi
    have hx := (getReg s x).isLt
    have hy := (getReg s y).isLt
    have hn := n.isLt
    simp only [readRun_length] at hk
    simp only [pixelIndex, Config.dispWidth] at e
    omega

/-- What the execute phase can do, for every instruction and state. -/
theorem exec_cases (i : Instr) (s : State) : ExecCase i s := by
  cases i with
  | ret => exact execCase_ret s
  | call nnn => exact execCase_call nnn s
  | drw x y n => exact execCase_drw x y n s
  | skp x => exact execCase_key _ x true s rfl
  | sknp x => exact execCase_key _ x false s rfl
  | ldVxK x => exact execCase_ldVxK x s
  | ldB x => exact execCase_store _ s _ _ rfl
  | ldMemVx x => exact execCase_store _ s _ _ rfl
  | ldVxMem x => exact execCase_ldVxMem x s
  | sys nnn => exact execCase_completes _ s _ rfl ⟨rfl, rfl, rfl, rfl, rfl, id, fun _ => rfl, id⟩
  | cls => exact execCase_completes _ s _ rfl ⟨rfl, rfl, rfl, rfl, rfl, fun _ => rfl, id, id⟩
  | _ => exact execCase_completes _ s _ rfl ⟨rfl, rfl, rfl, rfl, rfl, id, id, id⟩

/-- A taken fault leaves a fault status of R170's table. -/
theorem raise_faultStatus (f : Fault) (s : State) (h : f.InRange) : FaultStatusOk (raise f s) := by
  unfold FaultStatusOk
  rw [if_pos (raise_halt f s)]
  cases f with
  | stackOverflow => exact .inl ⟨rfl, rfl⟩
  | stackUnderflow => exact .inr (.inl ⟨rfl, rfl⟩)
  | outOfBoundsMemoryAccess a =>
    have hr : 4096 ≤ a ∧ a < 65536 := h
    refine .inr (.inr (.inl ⟨rfl, ?_⟩))
    simp only [raise, Fault.info, BitVec.toNat_ofNat]
    omega
  | outOfBoundsDisplayAccess idx =>
    have hr : 2048 ≤ idx ∧ idx ≤ 17478 := h
    refine .inr (.inr (.inr (.inl ⟨rfl, ?_⟩)))
    simp only [raise, Fault.info, BitVec.toNat_ofNat]
    omega
  | keyIndexOutOfRange k =>
    have hr : 16 ≤ k.toNat := h
    have hk := k.isLt
    refine .inr (.inr (.inr (.inr ⟨rfl, ?_⟩)))
    simp only [raise, Fault.info, BitVec.toNat_setWidth]
    omega

/-! ### The Step -/

/-- A Step with HALT = 1 (R81). -/
theorem step_halted (s : State) (h : s.halt = true) : step s = .next s := by
  simp only [step, cycle, h, if_true]

/-- A Step whose fetch leaves memory (R82). -/
theorem step_fetch_fault (s : State) (h : s.halt = false) (hp : Config.memSize ≤ s.pc.toNat + 1) :
    step s = .next (raise (.outOfBoundsMemoryAccess (max s.pc.toNat Config.memSize)) s) := by
  simp only [step, cycle, h, fetch_error s hp, Bool.false_eq_true, if_false]

/-- A running Step whose fetch stays in memory runs the fetched word (R80). -/
theorem step_runs (s : State) (h : s.halt = false) (hp : s.pc.toNat + 1 < Config.memSize) :
    step s = runWord (wordOfBytes (Memory.read s.mem s.pc.toNat) (Memory.read s.mem (s.pc.toNat + 1))) s := by
  simp only [step, cycle, h, fetch_ok s hp, Bool.false_eq_true, if_false]

end Sys2Proof.Machine
end

