-- ==== Sys2Proof/Laws/PerInstr.lean ====
section
/-! SUPPORT. The law stated per instruction: the word of an instruction selects the instruction's row of 30_encoding.md R65. -/

namespace Sys2Proof.Laws.OpcodeRow

/-- `(op & mask) == match` for the word of the instruction (R65). -/
def Statement (i : Instr) : Prop := encode i &&& rowMask i = rowMatch i

/-- Under the mask 0xF000 an NNN word keeps its primary opcode. -/
theorem maskedNNN (op : Nibble) (nnn : Addr) : wordNNN op nnn &&& 0xF000#16 = op.setWidth 16 <<< 12 := by
  apply BitVec.eq_of_getLsbD_eq; intro i hi
  interval_cases i <;> simp [wordNNN, BitVec.getLsbD_of_ge]

/-- Under the mask 0xF000 an XNN word keeps its primary opcode. -/
theorem maskedXNN (op x : Nibble) (nn : Byte) : wordXNN op x nn &&& 0xF000#16 = op.setWidth 16 <<< 12 := by
  apply BitVec.eq_of_getLsbD_eq; intro i hi
  interval_cases i <;> simp [wordXNN, BitVec.getLsbD_of_ge]

/-- Under the mask 0xF000 an XYN word keeps its primary opcode. -/
theorem maskedXYN (op x y n : Nibble) : wordXYN op x y n &&& 0xF000#16 = op.setWidth 16 <<< 12 := by
  apply BitVec.eq_of_getLsbD_eq; intro i hi
  interval_cases i <;> simp [wordXYN, BitVec.getLsbD_of_ge]

/-- Under the mask 0xF00F an XY word keeps its primary opcode and its low nibble. -/
theorem maskedXY (op x y n : Nibble) :
    wordXYN op x y n &&& 0xF00F#16 = op.setWidth 16 <<< 12 ||| n.setWidth 16 := by
  apply BitVec.eq_of_getLsbD_eq; intro i hi
  interval_cases i <;> simp [wordXYN, BitVec.getLsbD_of_ge]

/-- Under the mask 0xF0FF an X word keeps its primary opcode and its low byte. -/
theorem maskedX (op x : Nibble) (nn : Byte) :
    wordXNN op x nn &&& 0xF0FF#16 = op.setWidth 16 <<< 12 ||| nn.setWidth 16 := by
  apply BitVec.eq_of_getLsbD_eq; intro i hi
  interval_cases i <;> simp [wordXNN, BitVec.getLsbD_of_ge]

theorem sys (nnn : Addr) : Statement (.sys nnn) := (maskedNNN _ nnn).trans rfl

theorem cls : Statement .cls := rfl

theorem ret : Statement .ret := rfl

theorem jp (nnn : Addr) : Statement (.jp nnn) := (maskedNNN _ nnn).trans rfl

theorem call (nnn : Addr) : Statement (.call nnn) := (maskedNNN _ nnn).trans rfl

theorem seImm (x : Nibble) (nn : Byte) : Statement (.seImm x nn) := (maskedXNN _ x nn).trans rfl

theorem sneImm (x : Nibble) (nn : Byte) : Statement (.sneImm x nn) := (maskedXNN _ x nn).trans rfl

theorem seReg (x : Nibble) (y : Nibble) : Statement (.seReg x y) := (maskedXY _ x y _).trans rfl

theorem ldImm (x : Nibble) (nn : Byte) : Statement (.ldImm x nn) := (maskedXNN _ x nn).trans rfl

theorem addImm (x : Nibble) (nn : Byte) : Statement (.addImm x nn) := (maskedXNN _ x nn).trans rfl

theorem ldReg (x : Nibble) (y : Nibble) : Statement (.ldReg x y) := (maskedXY _ x y _).trans rfl

theorem orReg (x : Nibble) (y : Nibble) : Statement (.orReg x y) := (maskedXY _ x y _).trans rfl

theorem andReg (x : Nibble) (y : Nibble) : Statement (.andReg x y) := (maskedXY _ x y _).trans rfl

theorem xorReg (x : Nibble) (y : Nibble) : Statement (.xorReg x y) := (maskedXY _ x y _).trans rfl

theorem addReg (x : Nibble) (y : Nibble) : Statement (.addReg x y) := (maskedXY _ x y _).trans rfl

theorem sub (x : Nibble) (y : Nibble) : Statement (.sub x y) := (maskedXY _ x y _).trans rfl

theorem shr (x : Nibble) (y : Nibble) : Statement (.shr x y) := (maskedXY _ x y _).trans rfl

theorem subn (x : Nibble) (y : Nibble) : Statement (.subn x y) := (maskedXY _ x y _).trans rfl

theorem shl (x : Nibble) (y : Nibble) : Statement (.shl x y) := (maskedXY _ x y _).trans rfl

theorem sneReg (x : Nibble) (y : Nibble) : Statement (.sneReg x y) := (maskedXY _ x y _).trans rfl

theorem ldI (nnn : Addr) : Statement (.ldI nnn) := (maskedNNN _ nnn).trans rfl

theorem jpV0 (nnn : Addr) : Statement (.jpV0 nnn) := (maskedNNN _ nnn).trans rfl

theorem rnd (x : Nibble) (nn : Byte) : Statement (.rnd x nn) := (maskedXNN _ x nn).trans rfl

theorem drw (x : Nibble) (y : Nibble) (n : Nibble) : Statement (.drw x y n) := (maskedXYN _ x y n).trans rfl

theorem skp (x : Nibble) : Statement (.skp x) := (maskedX _ x _).trans rfl

theorem sknp (x : Nibble) : Statement (.sknp x) := (maskedX _ x _).trans rfl

theorem ldVxDt (x : Nibble) : Statement (.ldVxDt x) := (maskedX _ x _).trans rfl

theorem ldVxK (x : Nibble) : Statement (.ldVxK x) := (maskedX _ x _).trans rfl

theorem ldDtVx (x : Nibble) : Statement (.ldDtVx x) := (maskedX _ x _).trans rfl

theorem ldStVx (x : Nibble) : Statement (.ldStVx x) := (maskedX _ x _).trans rfl

theorem addI (x : Nibble) : Statement (.addI x) := (maskedX _ x _).trans rfl

theorem ldF (x : Nibble) : Statement (.ldF x) := (maskedX _ x _).trans rfl

theorem ldB (x : Nibble) : Statement (.ldB x) := (maskedX _ x _).trans rfl

theorem ldMemVx (x : Nibble) : Statement (.ldMemVx x) := (maskedX _ x _).trans rfl

theorem ldVxMem (x : Nibble) : Statement (.ldVxMem x) := (maskedX _ x _).trans rfl

end Sys2Proof.Laws.OpcodeRow
end

