-- ==== Sys2Proof/Tests/Slice0.lean ====
section
/-! SUPPORT. Tests. Decode words are written out from R65; expected results are those of 95_test_vectors.md (the vector's name
stands in the theorem's comment) or of the rule named. After the tests stand the witnesses of the statements' hypotheses. -/

open Sys2Proof Sys2Proof.Machine

namespace Sys2Proof.Tests

/-- The state one Step after the word is placed at PC. -/
def after (w : Nat) (s : State) : State :=
  match step (s.withFetchWord 16 w) with
  | .next t => t
  | _ => s

/-- The state one Step later, whatever memory holds at PC. -/
def stepped (s : State) : State :=
  match step s with
  | .next t => t
  | _ => s

/-- Bytes placed in memory. -/
def poke (a : Nat) (bytes : List Byte) (s : State) : State := setMem s (Memory.writeRun s.mem a bytes)

/-- The reset state with V0 and V1. -/
def two (a b : Byte) : State := setReg (setReg State.reset 0 a) 1 b

/-- A display with the listed pixels lit. -/
def lit (pixels : List Nat) : Display := pixels.foldl togglePixel 0

/-- The reset state with SP = n, every entry 0x0ABC. -/
def deep (n : Fin 17) : State := setStack State.reset (Vector.replicate 16 0x0ABC) n

/-- The sprite state of 95_test_vectors.md 2.5: one byte at 0x300, I there, coordinates in V0 and V1. -/
def sprite (row x y : Byte) : State := poke 0x300 [row] (setIndex (two x y) 0x300)

/-! ### WellFormed: the two words SYS does not have -/

theorem test_wellFormed_sys : WellFormed (.sys 0x000) = true := by decide
theorem test_wellFormed_refuses_sys_0E0 : WellFormed (.sys 0x0E0) = false := by decide
theorem test_wellFormed_refuses_sys_0EE : WellFormed (.sys 0x0EE) = false := by decide

/-! ### Decode: every constructor by a word written out from R65, and the unknown words of R66 -/

theorem test_decode_zero : decodeTableWord 16 0x0123 = some (.sys 0x123) ∧ decodeTableWord 16 0x0000 = some (.sys 0) ∧
    decodeTableWord 16 0x00E0 = some .cls ∧ decodeTableWord 16 0x00EE = some .ret := by decide
theorem test_decode_jumps : decodeTableWord 16 0x1234 = some (.jp 0x234) ∧
    decodeTableWord 16 0x2300 = some (.call 0x300) ∧ decodeTableWord 16 0xB7FE = some (.jpV0 0x7FE) := by decide
theorem test_decode_skips : decodeTableWord 16 0x3342 = some (.seImm 3 0x42) ∧
    decodeTableWord 16 0x4C81 = some (.sneImm 0xC 0x81) ∧ decodeTableWord 16 0x5120 = some (.seReg 1 2) ∧
    decodeTableWord 16 0x9AB0 = some (.sneReg 0xA 0xB) := by decide
theorem test_decode_immediates : decodeTableWord 16 0x6AFF = some (.ldImm 0xA 0xFF) ∧
    decodeTableWord 16 0x7F01 = some (.addImm 0xF 1) ∧ decodeTableWord 16 0xC30F = some (.rnd 3 0x0F) := by decide
theorem test_decode_arithmetic_low : decodeTableWord 16 0x8120 = some (.ldReg 1 2) ∧
    decodeTableWord 16 0x8121 = some (.orReg 1 2) ∧ decodeTableWord 16 0x8122 = some (.andReg 1 2) ∧
    decodeTableWord 16 0x8123 = some (.xorReg 1 2) ∧ decodeTableWord 16 0x8124 = some (.addReg 1 2) := by decide
theorem test_decode_arithmetic_high : decodeTableWord 16 0x8125 = some (.sub 1 2) ∧
    decodeTableWord 16 0x8126 = some (.shr 1 2) ∧ decodeTableWord 16 0x8127 = some (.subn 1 2) ∧
    decodeTableWord 16 0x812E = some (.shl 1 2) := by decide
theorem test_decode_index : decodeTableWord 16 0xA2F0 = some (.ldI 0x2F0) ∧
    decodeTableWord 16 0xF21E = some (.addI 2) ∧ decodeTableWord 16 0xFA29 = some (.ldF 0xA) ∧
    decodeTableWord 16 0xF033 = some (.ldB 0) ∧ decodeTableWord 16 0xF155 = some (.ldMemVx 1) ∧
    decodeTableWord 16 0xF265 = some (.ldVxMem 2) := by decide
theorem test_decode_display : decodeTableWord 16 0xD12A = some (.drw 1 2 0xA) := by decide
theorem test_decode_keys_timers : decodeTableWord 16 0xE29E = some (.skp 2) ∧
    decodeTableWord 16 0xE3A1 = some (.sknp 3) ∧ decodeTableWord 16 0xF107 = some (.ldVxDt 1) ∧
    decodeTableWord 16 0xF50A = some (.ldVxK 5) ∧ decodeTableWord 16 0xF415 = some (.ldDtVx 4) ∧
    decodeTableWord 16 0xF618 = some (.ldStVx 6) := by decide
/-- STEP-2, 3, 5, 6, 7. -/
theorem test_decode_unknown : decodeTableWord 16 0x5121 = none ∧ decodeTableWord 16 0x8008 = none ∧
    decodeTableWord 16 0xE19F = none ∧ decodeTableWord 16 0xF0FF = none ∧ decodeTableWord 16 0x9AB1 = none := by decide
/-- R62's formats, encoded. -/
theorem test_encode : encode (.jp 0x234) = 0x1234 ∧ encode (.seImm 3 0x42) = 0x3342 ∧ encode (.shl 0xF 1) = 0x8F1E ∧
    encode (.drw 1 2 5) = 0xD125 ∧ encode (.ldVxMem 2) = 0xF265 := by decide
/-- R69: `SHR V3` assembles with Y = 0, `JP V1, addr` and `SYS 0x0E0` do not assemble. -/
theorem test_assemble : assemble .SHR [.v 3] = some (.shr 3 0) ∧ assemble .JP [.v 1, .addr 0x300] = none ∧
    assemble .SYS [.addr 0x0E0] = none := by decide

/-! ### The Step frame (2.1) -/

/-- STEP-1. -/
theorem test_reset_runs_sys : stepResult State.reset = .unknownOpcode 0 ∧ (stepped State.reset).pc = 0x202 := by decide
/-- STEP-3. -/
theorem test_unknown_ticks :
    let t := after 0x8008 { State.reset with dt := 2, st := 1 }
    t.unk = true ∧ t.pc = 0x202 ∧ t.dt = 1 ∧ t.st = 0 ∧ t.beep = true ∧ t.halt = false := by decide
/-- STEP-8: the last word of memory. -/
theorem test_last_word : getReg (after 0x6007 (setPc State.reset 0x0FFE)) 0 = 7 ∧
    (after 0x6007 (setPc State.reset 0x0FFE)).pc = 0x1000 := by decide
/-- STEP-9. -/
theorem test_fetch_fault :
    let t := stepped { State.reset with pc := 0x0FFF, dt := 5 }
    t.halt = true ∧ t.fcause = 4 ∧ t.finfo = 0x1000 ∧ t.pc = 0x0FFF ∧ t.dt = 5 := by decide
/-- STEP-11. -/
theorem test_halted : stepResult { State.reset with halt := true, fcause := 4, finfo := 0x1000, dt := 5 } = .fault 7 0 ∧
    (stepped { State.reset with halt := true, fcause := 4, finfo := 0x1000, dt := 5 }).dt = 5 := by decide
/-- STEP-12: PC odd. -/
theorem test_odd_pc : (after 0x1208 (setPc State.reset 0x0201)).pc = 0x208 := by decide
/-- TMR-9, TMR-10. -/
theorem test_tick : (after 0x6000 { State.reset with dt := 0xFF, st := 0xFF }).dt = 0xFE ∧
    (after 0x6000 { State.reset with st := 0xFF }).beep = false ∧
    (after 0x6000 { State.reset with beep := true }).beep = true := by decide

/-! ### Control flow (2.2) -/

/-- STEP-4. -/
theorem test_sys : (after 0x0123 State.reset).unk = true ∧ (after 0x0123 State.reset).pc = 0x202 := by decide
/-- CF-7, CF-8. -/
theorem test_ret : (after 0x00EE (deep 1)).pc = 0x0ABE ∧ (after 0x00EE (deep 1)).sp = 0 ∧
    (after 0x00EE (setStack State.reset (Vector.replicate 16 0xFFFE) 1)).pc = 0 := by decide
/-- CF-6. -/
theorem test_ret_underflow : (after 0x00EE State.reset).fcause = 3 ∧ (after 0x00EE State.reset).finfo = 0 ∧
    (after 0x00EE State.reset).pc = 0x200 := by decide
/-- S5. -/
theorem test_jp : (after 0x1234 State.reset).pc = 0x234 := by decide
/-- CF-4: the sixteenth entry. -/
theorem test_call : (after 0x2300 (deep 15)).stack[15] = 0x200 ∧ (after 0x2300 (deep 15)).sp = 16 ∧
    (after 0x2300 (deep 15)).pc = 0x300 := by decide
/-- CF-5. -/
theorem test_call_overflow : (after 0x2300 (deep 16)).fcause = 2 ∧ (after 0x2300 (deep 16)).finfo = 16 ∧
    (after 0x2300 (deep 16)).sp = 16 := by decide
/-- CF-9, CF-10. -/
theorem test_seImm : (after 0x3342 (setReg State.reset 3 0x42)).pc = 0x204 ∧
    (after 0x3342 (setReg State.reset 3 0x41)).pc = 0x202 := by decide
/-- CF-11, CF-12. -/
theorem test_sneImm : (after 0x4342 (setReg State.reset 3 0x42)).pc = 0x202 ∧
    (after 0x4342 (setReg State.reset 3 0x41)).pc = 0x204 := by decide
/-- R106. -/
theorem test_seReg : (after 0x5010 (two 7 7)).pc = 0x204 ∧ (after 0x5010 (two 7 8)).pc = 0x202 := by decide
/-- R107. -/
theorem test_sneReg : (after 0x9010 (two 7 8)).pc = 0x204 ∧ (after 0x9010 (two 7 7)).pc = 0x202 := by decide
/-- CF-19. -/
theorem test_jpV0 : (after 0xBFFF (two 0xFF 0)).pc = 0x10FE := by decide
/-- CF-20: a skip past the end. -/
theorem test_skip_past_end : (after 0x3000 (setPc State.reset 0x0FFC)).pc = 0x1000 := by decide

/-! ### Arithmetic and logic (2.3) -/

/-- ALU-1. -/
theorem test_ldImm : getReg (after 0x6AFF State.reset) 0xA = 0xFF := by decide
/-- ALU-2, ALU-4. -/
theorem test_addImm : getReg (after 0x7001 (two 0xFF 0)) 0 = 0 ∧ getReg (after 0x7001 (two 0xFF 0)) vf = 0 ∧
    getReg (after 0x7F01 (setReg State.reset vf 0x0F)) vf = 0x10 := by decide
/-- ALU-5. -/
theorem test_ldReg : getReg (after 0x8010 (two 0 0x5A)) 0 = 0x5A := by decide
/-- ALU-6: VF not written. -/
theorem test_or : getReg (after 0x8011 (setReg (two 0xF0 0x3C) vf 1)) 0 = 0xFC ∧
    getReg (after 0x8011 (setReg (two 0xF0 0x3C) vf 1)) vf = 1 := by decide
/-- ALU-7. -/
theorem test_and : getReg (after 0x8012 (two 0xF0 0x3C)) 0 = 0x30 := by decide
/-- ALU-8, ALU-9. -/
theorem test_xor : getReg (after 0x8013 (two 0xF0 0x3C)) 0 = 0xCC ∧
    getReg (after 0x8333 (setReg State.reset 3 0xA5)) 3 = 0 := by decide
/-- S3. -/
theorem test_add : getReg (after 0x8014 (two 0xFF 1)) 0 = 0 ∧ getReg (after 0x8014 (two 0xFF 1)) vf = 1 ∧
    getReg (after 0x8014 (setReg (two 1 1) vf 7)) vf = 0 := by decide
/-- ALU-14, VF-1, VF-8: X = Y, X = F, Y = F. -/
theorem test_add_aliases : getReg (after 0x8114 (two 0 0x90)) 1 = 0x20 ∧
    getReg (after 0x8F14 (setReg (two 0 1) vf 0xFF)) vf = 1 ∧
    getReg (after 0x80F4 (setReg (two 1 0) vf 2)) 0 = 3 := by decide
/-- ALU-16, ALU-17. -/
theorem test_sub : getReg (after 0x8015 (two 3 5)) 0 = 0xFE ∧ getReg (after 0x8015 (setReg (two 3 5) vf 1)) vf = 0 ∧
    getReg (after 0x8015 (two 7 7)) vf = 1 := by decide
/-- VF-6, VF-9. -/
theorem test_sub_aliases : getReg (after 0x8F15 (setReg (two 0 9) vf 5)) vf = 0 ∧
    getReg (after 0x80F5 (setReg (two 5 0) vf 5)) 0 = 0 := by decide
/-- ALU-23: V1 plays no part. -/
theorem test_shr : getReg (after 0x8016 (two 0xFF 0)) 0 = 0x7F ∧ getReg (after 0x8016 (two 0xFF 0)) vf = 1 ∧
    getReg (after 0x8016 (two 0x80 1)) vf = 0 := by decide
/-- VF-3. -/
theorem test_shr_vf : getReg (after 0x8F16 (setReg State.reset vf 3)) vf = 1 := by decide
/-- ALU-25, ALU-28. -/
theorem test_subn : getReg (after 0x8017 (two 3 5)) 0 = 2 ∧ getReg (after 0x8017 (two 3 5)) vf = 1 ∧
    getReg (after 0x8017 (two 1 0)) 0 = 0xFF ∧ getReg (after 0x8017 (two 1 0)) vf = 0 := by decide
/-- ALU-30, ALU-31. -/
theorem test_shl : getReg (after 0x801E (two 0x81 0)) 0 = 2 ∧ getReg (after 0x801E (two 0x81 0)) vf = 1 ∧
    getReg (after 0x801E (two 0x40 0xFF)) vf = 0 := by decide
/-- VF-5. -/
theorem test_shl_vf : getReg (after 0x8F1E (setReg State.reset vf 0x80)) vf = 1 := by decide
/-- ALU-35: the mask 0 gives 0 whatever is drawn; the draw is consumed. -/
theorem test_rnd : getReg (after 0xC000 (two 0xAB 0)) 0 = 0 ∧ (after 0xC000 State.reset).draws = 1 := by
  refine ⟨?_, by decide⟩
  show Config.rndIn 0 &&& (0 : Byte) = 0
  exact BitVec.and_zero

/-! ### Index register and memory (2.4) -/

/-- IDX-1. -/
theorem test_ldI : (after 0xAFFF State.reset).i = 0x0FFF := by decide
/-- IDX-2, IDX-3. -/
theorem test_addI : (after 0xF01E (setIndex (two 1 0) 0x0FFF)).i = 0x1000 ∧
    (after 0xF01E (setIndex (two 2 0) 0xFFFF)).i = 1 := by decide
/-- IDX-4, IDX-5. -/
theorem test_ldF : (after 0xFA29 (setReg State.reset 0xA 0xA)).i = 0x0032 ∧
    (after 0xF029 (two 0xFF 0)).i = 0x04FB := by decide
/-- IDX-8, IDX-12. -/
theorem test_ldB : Memory.readRun (after 0xF033 (setIndex (two 255 0) 0x300)).mem 0x300 3 = [2, 5, 5] ∧
    Memory.readRun (after 0xF033 (setIndex (two 99 0) 0x0FFD)).mem 0x0FFD 3 = [0, 9, 9] := by decide
/-- IDX-13: no byte written. -/
theorem test_ldB_fault : (after 0xF033 (setIndex (two 99 0) 0x0FFE)).finfo = 0x1000 ∧
    Memory.read (after 0xF033 (setIndex (two 99 0) 0x0FFE)).mem 0x0FFF = 0 := by decide
/-- IDX-16, IDX-19. -/
theorem test_ldMemVx : Memory.readRun (after 0xF155 (setIndex (two 0x11 0x22) 0x400)).mem 0x400 2 = [0x11, 0x22] ∧
    (after 0xF155 (setIndex (two 0x11 0x22) 0x400)).i = 0x402 ∧
    (after 0xFF55 (setIndex State.reset 0x0FF1)).finfo = 0x1000 := by decide
/-- IDX-21, IDX-23. -/
theorem test_ldVxMem : getReg (after 0xF465 State.reset) 0 = 0xF0 ∧ getReg (after 0xF465 State.reset) 3 = 0x90 ∧
    (after 0xF465 State.reset).i = 5 ∧ (after 0xF165 (setIndex State.reset 0x0FFF)).fcause = 4 := by decide
/-- IDX-15: code overwritten by its own store. -/
theorem test_store_then_fetch : fetch (after 0xF033 (setIndex (two 234 0) 0x200)) = .ok 0x0400 := by decide

/-! ### Display (2.5) -/

/-- DSP-1. -/
theorem test_cls : (after 0x00E0 { State.reset with disp := lit [0, 100, 2047] }).disp = 0 ∧
    (after 0x00E0 State.reset).redraw = true := by decide +kernel
/-- DSP-2, DSP-3. -/
theorem test_drw : (after 0xD011 (sprite 0xC0 0 0)).disp = lit [0, 1] ∧
    (after 0xD011 { sprite 0xC0 0 0 with disp := lit [0, 1] }).disp = 0 ∧
    getReg (after 0xD011 { sprite 0xC0 0 0 with disp := lit [0, 1] }) vf = 1 := by decide +kernel
/-- DSP-20: a font glyph, several rows. -/
theorem test_drw_glyph : (after 0xD015 (setIndex (two 2 3) 5)).disp =
    lit [196, 259, 260, 324, 388, 451, 452, 453] := by decide +kernel
/-- DSP-5 under both readings of DRW_COLLISION. -/
theorem test_drw_collision : (blit .any (lit [0]) [0, 1]).2 = true ∧ (blit .last (lit [0]) [0, 1]).2 = false ∧
    getReg (after 0xD011 { sprite 0xC0 0 0 with disp := lit [0] }) vf = 1 := by decide +kernel
/-- DSP-8, DSP-10. -/
theorem test_drw_display_fault : (after 0xD011 (sprite 0xC0 63 31)).fcause = 5 ∧
    (after 0xD011 (sprite 0xC0 63 31)).finfo = 2048 ∧ (after 0xD011 (sprite 0xFF 60 31)).finfo = 2048 ∧
    (after 0xD011 (sprite 0xFF 60 31)).disp = 0 := by decide +kernel
/-- DSP-17: the memory check comes first. -/
theorem test_drw_memory_fault : (after 0xD012 (poke 0xFFF [0x80] (setIndex (two 0 32) 0x0FFF))).fcause = 4 := by
  decide +kernel
/-- DSP-18, DSP-19. -/
theorem test_drw_corners : (after 0xD010 (setIndex State.reset 0x1234)).redraw = true ∧
    (after 0xDF01 (setReg (sprite 0x80 2 0) vf 5)).disp = lit [133] := by decide +kernel

/-! ### Keypad and timers (2.6) -/

/-- KEY-1, KEY-2. -/
theorem test_skp : (after 0xE29E { setReg State.reset 2 9 with keys := 0x0200 }).pc = 0x204 ∧
    (after 0xE29E (setReg State.reset 2 9)).pc = 0x202 := by decide
/-- KEY-5, KEY-7. -/
theorem test_skp_range : (after 0xE29E (setReg State.reset 2 0x10)).fcause = 6 ∧
    (after 0xE29E (setReg State.reset 2 0x10)).finfo = 0x10 ∧
    (after 0xE29E { setReg State.reset 2 15 with keys := 0x8000 }).pc = 0x204 := by decide
/-- KEY-3, KEY-4. -/
theorem test_sknp : (after 0xE2A1 (setReg State.reset 2 9)).pc = 0x204 ∧
    (after 0xE2A1 { setReg State.reset 2 9 with keys := 0x0200 }).pc = 0x202 := by decide
/-- KEY-8, KEY-10. -/
theorem test_ldVxK : (after 0xF50A (setReg State.reset 5 0x77)).pc = 0x200 ∧
    getReg (after 0xF50A (setReg State.reset 5 0x77)) 5 = 0x77 ∧
    getReg (after 0xF50A { State.reset with keys := 0x8081 }) 5 = 15 := by decide
/-- TMR-1, TMR-8. -/
theorem test_ldVxDt : getReg (after 0xF107 { State.reset with dt := 5 }) 1 = 5 ∧
    (after 0xF107 { State.reset with dt := 5 }).dt = 4 ∧ (after 0xF107 State.reset).dt = 0 := by decide
/-- TMR-2, TMR-7. -/
theorem test_ldDtVx : (after 0xF015 (two 5 0)).dt = 4 ∧ (after 0xF015 { State.reset with dt := 9 }).dt = 0 := by decide
/-- TMR-3, TMR-4. -/
theorem test_ldStVx : (after 0xF018 (two 1 0)).st = 0 ∧ (after 0xF018 (two 1 0)).beep = true ∧
    (after 0xF018 { State.reset with st := 9 }).beep = false := by decide

/-! ### The host's operations (2.7) -/

/-- R88: the draw after a Reset is not the one before it. -/
theorem test_reset_keeps_draws : (hostReset (after 0xC000 State.reset)).draws = 1 ∧
    (hostReset (after 0xC000 State.reset)).pc = 0x200 := by decide
/-- HOST-6: bytes above the new image keep their value. -/
theorem test_load : Memory.readRun
    (hostLoad [0x60, 0x01] (hostLoad [0x12, 0x00, 0xAA, 0xBB] State.reset)).mem 0x200 4 = [0x60, 0x01, 0xAA, 0xBB] := by
  decide
/-- HOST-9, HOST-10. -/
theorem test_clears : (outputs (hostClearRedraw { State.reset with redraw := true, beep := true })).beep = true ∧
    (outputs (hostClearBeep { State.reset with redraw := true, beep := true })).redraw = true := by decide

/-! ### Witnesses: for each statement with hypotheses, states and operands that meet them, clause by clause -/

theorem meets_invariant (s : State) (h : Memory.wf s.mem ∧ s.halt = false ∧ s.fcause = 0 ∧ s.finfo = 0) : MachineInv s :=
  ⟨h.1, by unfold FaultStatusOk; rw [if_neg (by rw [h.2.1]; decide)]; exact h.2.2⟩

theorem witness_StepKeepsTheInvariant : ∃ t, MachineInv State.reset ∧ step State.reset = .next t :=
  ⟨stepped State.reset, meets_invariant _ (by decide), rfl⟩

theorem witness_HostOperationsKeepTheInvariant :
    ∃ t, MachineInv State.reset ∧ perform (.load [0x12, 0x00]) State.reset = .next t :=
  ⟨hostLoad [0x12, 0x00] State.reset, meets_invariant _ (by decide), rfl⟩

theorem witness_LoadCopiesOrRefusesTheImage : Memory.wf State.reset.mem ∧ ([] : List Byte).length ≤ 3584 ∧
    (List.replicate 3584 (0xAA : Byte)).length ≤ 3584 ∧ 3584 < (List.replicate 3585 (0xAA : Byte)).length :=
  ⟨by decide, by decide, by rw [List.length_replicate], by rw [List.length_replicate]; decide⟩

theorem witness_BootRunsTheLoadedImage : 2 ≤ [(0x12 : Byte), 0x34].length ∧ [(0x12 : Byte), 0x34].length ≤ 3584 ∧
    (List.replicate 3584 (0xAA : Byte)).length ≤ 3584 := ⟨by decide, by decide, by rw [List.length_replicate]⟩

theorem witness_SetKeysStoresTheSnapshot : ∃ t, perform .clearBeep State.reset = .next t ∧
    Operation.clearBeep ≠ .reset ∧ ∀ k, Operation.clearBeep ≠ .setKeys k := ⟨_, rfl, by decide, fun _ => nofun⟩

/-- Clauses: REDRAW kept by ClearBeep, BEEP kept by ClearRedraw. -/
theorem witness_RedrawAndBeepAreClearedByTheHost :
    let s : State := { State.reset with redraw := true, beep := true }
    ∃ t u, perform .clearBeep s = .next t ∧ Operation.clearBeep ≠ .reset ∧ Operation.clearBeep ≠ .clearRedraw ∧
      s.redraw = true ∧ perform .clearRedraw s = .next u ∧ Operation.clearRedraw ≠ .reset ∧
      Operation.clearRedraw ≠ .clearBeep ∧ s.beep = true :=
  ⟨_, _, rfl, by decide, by decide, rfl, rfl, by decide, by decide, rfl⟩

theorem witness_UnkIsSticky : stepResult State.reset = .unknownOpcode 0 ∧
    step State.reset = .next (stepped State.reset) ∧ (stepped State.reset).unk = true ∧
    perform .clearBeep (stepped State.reset) = .next (hostClearBeep (stepped State.reset)) ∧
    Operation.clearBeep ≠ .reset ∧ perform .reset (stepped State.reset) = .next State.reset :=
  ⟨by decide, rfl, by decide, rfl, by decide, rfl⟩

theorem witness_DecodeOfEncodeIsTheInstruction : WellFormed (.sys 0x0E1) = true ∧ WellFormed (.drw 0xF 0xF 0xF) = true := by
  decide

theorem witness_EncodeOfDecodeIsTheWord : decode 0xF065 = .ok (.ldVxMem 0) ∧ decode 0x0FFF = .ok (.sys 0xFFF) := by decide

theorem witness_AssembleOfDisassembleIsTheInstruction : WellFormed (.shr 3 7) = true := by decide

theorem witness_FetchIsBigEndianAndBounded : (setPc State.reset 0x0FFE).pc.toNat + 1 ≤ 4095 ∧
    State.reset.halt = false ∧ (setPc State.reset 0x0FFF).pc = 0x0FFF ∧
    0x1000 ≤ (setPc State.reset 0x1000).pc.toNat := by decide

theorem witness_StepRunsTheDecodedInstruction :
    let s := (setPc State.reset 0x0FFE).withFetchWord 16 0x6007
    s.halt = false ∧ s.pc.toNat + 1 ≤ 4095 ∧
      decode (wordOfBytes (Memory.read s.mem s.pc.toNat) (Memory.read s.mem (s.pc.toNat + 1))) = .ok (.ldImm 0 7) := by
  decide

theorem witness_UnknownWordIsReportedAndSkipped :
    let s := State.reset.withFetchWord 16 0x8008
    s.halt = false ∧ fetch s = .ok 0x8008 ∧ decode 0x8008 = .error .arithmetic ∧
      fetch State.reset = .ok 0 ∧ decode 0 = .ok (.sys 0) := by decide

theorem witness_HaltedMachineStaysHalted :
    let s := { State.reset with halt := true, fcause := 4, finfo := 0x1000 }
    s.halt = true ∧ Operation.clearBeep ≠ .reset ∧ perform .clearBeep s = .next (hostClearBeep s) :=
  ⟨rfl, by decide, rfl⟩

theorem witness_TickEndsEveryFaultFreeStep : State.reset.halt = false ∧
    step State.reset = .next (stepped State.reset) ∧ (stepped State.reset).halt = false := ⟨rfl, rfl, by decide⟩

theorem witness_HaltingFaultsArePrecise : (setPc State.reset 0x0FFF).halt = false ∧
    step (setPc State.reset 0x0FFF) = .next (stepped (setPc State.reset 0x0FFF)) ∧
    (stepped (setPc State.reset 0x0FFF)).halt = true := ⟨rfl, rfl, by decide⟩

/-- One state for each result. -/
theorem witness_StepResultSaysWhatHappened : stepResult (State.reset.withFetchWord 16 0x6007) = .done ∧
    stepResult State.reset = .unknownOpcode 0 ∧ stepResult (setPc State.reset 0x0FFF) = .fault 4 0x1000 ∧
    stepResult { State.reset with halt := true } = .fault 7 0 := by decide

theorem witness_OnlyRndSeesTheDraw : (∀ x nn, Instr.jp 0x300 ≠ .rnd x nn) ∧
    exec (.jp 0x300) State.reset = .next (setPc State.reset 0x300) := ⟨fun _ _ => nofun, rfl⟩

/-- A next state with HALT = 0, and one with HALT = 1. -/
theorem witness_PcFollowsTheTable : State.reset.halt = false ∧
    exec (.jp 0x300) State.reset = .next (setPc State.reset 0x300) ∧
    exec .ret State.reset = .next (raise .stackUnderflow State.reset) := ⟨rfl, rfl, rfl⟩

theorem witness_InstructionsWriteOnlyTheirElements :
    exec (.ldI 0xFFF) State.reset = .next (advance (setIndex State.reset 0xFFF)) := rfl

theorem witness_VfIsWrittenByTheSixAlone :
    (∃ t, exec (.addReg 0 1) (two 0xFF 1) = .next t ∧ ¬ IsDestination (.addReg 0 1) 2 ∧
      ¬ (WritesFlag (.addReg 0 1) ∧ (2 : Nibble) = vf)) ∧
    ∃ t, (two 0xFF 1).halt = false ∧ exec (.addReg 0 1) (two 0xFF 1) = .next t ∧ t.halt = false ∧
      WritesFlag (.addReg 0 1) :=
  ⟨⟨_, rfl, by unfold IsDestination; decide, fun h => absurd h.2 (by decide)⟩, ⟨_, rfl, rfl, rfl, trivial⟩⟩

theorem witness_IdleMachineStaysIdle : IdleAt 0x200 (State.reset.withFetchWord 16 0x1200) := by unfold IdleAt; decide

theorem witness_StoresAreSeenByTheNextFetch :
    let s := { State.reset with pc := 0x0FFC, i := 0x0FFE }
    Memory.wf s.mem ∧ s.i.toNat = s.pc.toNat + 2 ∧ 1 ≤ (1 : Nibble).toNat ∧ s.i.toNat + (1 : Nibble).toNat ≤ 4095 := by
  decide

theorem witness_SysReportsUnknownOpcode : (0x123 : Addr) ≠ 0x0E0#12 ∧ (0x123 : Addr) ≠ 0x0EE#12 ∧
    (State.reset.withFetchWord 16 0x0123).halt = false ∧
    fetch (State.reset.withFetchWord 16 0x0123) = .ok (wordNNN 0x0 0x123) := by decide

/-- Clauses: the shallowest and the deepest entry, and the empty stack. -/
theorem witness_RetPopsTheCallAddress : (deep 1).sp.val = 0 + 1 ∧ (deep 16).sp.val = 15 + 1 ∧ State.reset.sp = 0 := by
  decide

/-- Clauses: the last free entry, and the full stack. -/
theorem witness_CallPushesItsOwnAddress : State.reset.sp.val < 16 ∧ (deep 15).sp.val < 16 ∧ (deep 16).sp.val = 16 := by
  decide

theorem witness_RetUndoesCall : (deep 15).sp.val < 16 := by decide

theorem witness_flag_instructions_beside_vf : (0 : Nibble) ≠ vf ∧ (0xE : Nibble) ≠ vf := by decide

theorem witness_ResultAndFlagKeepTheExactValue : ∃ t1 t2 t3 t4 t5, (0 : Nibble) ≠ vf ∧
    exec (.addReg 0 1) (two 3 5) = .next t1 ∧ exec (.sub 0 1) (two 3 5) = .next t2 ∧
    exec (.subn 0 1) (two 3 5) = .next t3 ∧ exec (.shr 0 1) (two 3 5) = .next t4 ∧
    exec (.shl 0 1) (two 3 5) = .next t5 := ⟨_, _, _, _, _, by decide, rfl, rfl, rfl, rfl, rfl⟩

theorem witness_BcdStoresThreeDigits : Memory.wf (setIndex State.reset 0x0FFD).mem ∧
    (setIndex State.reset 0x0FFD).i.toNat + 2 ≤ 4095 ∧ 4095 < (setIndex State.reset 0x0FFE).i.toNat + 2 ∧
    4095 < (setIndex State.reset 0xFFFF).i.toNat + 2 := by decide

theorem witness_BlockStoreCopiesRegisters : Memory.wf (setIndex State.reset 0x0FF0).mem ∧
    (setIndex State.reset 0x0FF0).i.toNat + (0xF : Nibble).toNat ≤ 4095 ∧
    4095 < (setIndex State.reset 0x0FF1).i.toNat + (0xF : Nibble).toNat := by decide

theorem witness_BlockLoadCopiesMemory : (setIndex State.reset 0x0FFF).i.toNat + (0 : Nibble).toNat ≤ 4095 ∧
    4095 < (setIndex State.reset 0x0FFF).i.toNat + (1 : Nibble).toNat := by decide

theorem witness_BlockLoadUndoesBlockStore : Memory.wf (setIndex State.reset 0x0FF0).mem ∧
    (setIndex State.reset 0x0FF0).i.toNat + (0xF : Nibble).toNat ≤ 4095 := by decide

/-- SpriteFits from its decidable form over the rows and columns. -/
theorem spriteFits_of_rows (s : State) (x y n : Nibble) (h0 : n.toNat = 0 ∨ s.i.toNat + n.toNat ≤ 4096)
    (h : ∀ r, r < n.toNat → ∀ c, c < 8 → (Memory.read s.mem (s.i.toNat + r)).getLsbD (7 - c) = true →
      spriteIndex s x y r c ≤ 2047) : SpriteFits s x y n :=
  ⟨h0, fun r c hs => h r hs.1 c hs.2.1 hs.2.2⟩

/-- The draw at the last pixel (DSP-7), and the draw of no row with I outside memory (DSP-18). -/
theorem witness_SpriteFits : SpriteFits (sprite 0x80 63 31) 0 1 1 ∧ SpriteFits (setIndex State.reset 0x1234) 0 1 0 :=
  ⟨spriteFits_of_rows _ _ _ _ (by decide) (by decide), spriteFits_of_rows _ _ _ _ (by decide) (by decide)⟩

/-- The memory fault's clause (DSP-16), and the display fault's (DSP-10: column 4 is the first one out). -/
theorem witness_DrwDrawsByXorOrFaults :
    (0 < (2 : Nibble).toNat ∧ 4095 < (setIndex State.reset 0x0FFF).i.toNat + (2 : Nibble).toNat - 1) ∧
    ((sprite 0xFF 60 31).i.toNat + (1 : Nibble).toNat ≤ 4096 ∧ SpriteSet (sprite 0xFF 60 31) 1 0 4 ∧
      2047 < spriteIndex (sprite 0xFF 60 31) 0 1 0 4 ∧
      ∀ r' c', SpriteSet (sprite 0xFF 60 31) 1 r' c' → r' < 0 ∨ (r' = 0 ∧ c' < 4) →
        spriteIndex (sprite 0xFF 60 31) 0 1 r' c' ≤ 2047) := by
  refine ⟨by decide, by decide, ⟨by decide, by decide, by decide⟩, by decide, fun r' c' _ hb => ?_⟩
  have h : ∀ c, c < 4 → spriteIndex (sprite 0xFF 60 31) 0 1 0 c ≤ 2047 := by decide
  rcases hb with hb | ⟨rfl, hb⟩
  · omega
  · exact h c' hb

theorem witness_DrawingTwiceRestoresTheDisplay : (0 : Nibble) ≠ vf ∧ (1 : Nibble) ≠ vf ∧
    SpriteFits (sprite 0x80 63 31) 0 1 1 := ⟨by decide, by decide, witness_SpriteFits.1⟩

/-- Clauses: the last key number, and the first that is none. -/
theorem witness_KeySkipsTestTheSnapshot : (getReg (two 15 0) 0).toNat ≤ 15 ∧ 15 < (getReg (two 16 0) 0).toNat := by decide

/-- Clauses: key 15 down; no key down; no key down at a fetched FX0A. -/
theorem witness_KeyWaitTakesTheHighestKey :
    (15 < 16 ∧ keyDown { State.reset with keys := 0x8081 } 15 = true ∧
      ∀ j, 15 < j → j < 16 → keyDown { State.reset with keys := 0x8081 } j = false) ∧
    (∀ j, j < 16 → keyDown State.reset j = false) ∧
    ((State.reset.withFetchWord 16 0xF50A).halt = false ∧
      fetch (State.reset.withFetchWord 16 0xF50A) = .ok (wordXNN 0xF 5 0x0A) ∧
      ∀ j, j < 16 → keyDown (State.reset.withFetchWord 16 0xF50A) j = false) :=
  ⟨⟨by decide, by decide, fun j h1 h2 => by omega⟩, by decide, by decide, by decide, by decide⟩

/-- Clauses: an operation that draws, Reset after a draw, and a fetched RND. -/
theorem witness_NoDrawIsReadTwice :
    let s := State.reset.withFetchWord 16 0xC30F
    perform .step s = .next (stepped s) ∧ perform .reset (stepped s) = .next (hostReset (stepped s)) ∧
      s.halt = false ∧ fetch s = .ok 0xC30F ∧ decode 0xC30F = .ok (.rnd 3 0x0F) :=
  ⟨rfl, rfl, by decide, by decide, by decide⟩

end Sys2Proof.Tests
end

section
/-! SUPPORT. The state's register rules, all that a register-writing instruction and a Step can do, and the proofs of
the statements about single elements of the state (10_state.md R12, R24, R30). -/

namespace Sys2Proof.Machine

/-! ### Reset -/

@[simp] theorem read_reset (a : Nat) : Memory.read State.reset.mem a = initialByte a := rfl

/-- Past the font, memory after Reset is zero (R30). -/
theorem initialByte_of_font_end_le (a : Nat) (h : 80 ≤ a) : initialByte a = 0 := by
  have hlen : font.length ≤ a - fontBase := h
  simp [initialByte, hlen]

@[simp] theorem getReg_reset (x : Nibble) : getReg State.reset x = 0 := by
  simp [getReg, State.reset]

/-- Settles O1: the font is the list of R29 itself, the rest of memory lies past it, and the other elements are the
constants of `State.reset`. -/
theorem resetLeavesTheTabledState : Obligations.ResetLeavesTheTabledState := by
  have hstack : ∀ k, (h : k < 16) → State.reset.stack[k] = 0 := fun _ h => Vector.getElem_replicate h
  have hpixels : ∀ k, k < 2048 → pixel State.reset.disp k = false := fun _ _ => BitVec.getLsbD_zero
  have hkeys : ∀ k, k < 16 → keyDown State.reset k = false := fun _ _ => BitVec.getLsbD_zero
  exact ⟨fun _ => rfl, rfl, fun a h _ => initialByte_of_font_end_le a h, getReg_reset, rfl, rfl, hstack, rfl, rfl, rfl,
    hpixels, hkeys, rfl, rfl, rfl, rfl, rfl, rfl⟩

/-! ### The Step and UNK -/

/-- What the execute phase leaves when it answers t: the instruction completed, or its fault was taken. -/
theorem exec_next_cases {i : Instr} {s t : State} (h : exec i s = .next t) :
    Completes s t ∨ ∃ f : Fault, f.InRange ∧ t = raise f s := by
  obtain ⟨u, hu, hcases⟩ := exec_cases i s
  obtain rfl : u = t := Host.Outcome.next.inj (hu.symm.trans h)
  exact hcases

/-- All that phases 2 to 4 can do with a fetched word (R80, R83). -/
theorem runWord_cases (op : Word) (s : State) :
    (∃ e, decode op = .error e ∧ runWord op s = .next (afterExecute (unknownOpcode s))) ∨
      ∃ i t, decode op = .ok i ∧ exec i s = .next t ∧ runWord op s = .next (afterExecute t) := by
  cases hd : decode op with
  | error e => exact .inl ⟨e, rfl, by simp only [runWord, hd]⟩
  | ok i =>
    obtain ⟨t, ht, -⟩ := exec_cases i s
    exact .inr ⟨i, t, rfl, ht, by simp only [runWord, hd, ht]⟩

/-- A fetched word always leads to a next state (log 2). -/
theorem runWord_next (op : Word) (s : State) : ∃ t, runWord op s = .next t := by
  obtain ⟨_, -, hw⟩ | ⟨_, t, -, -, hw⟩ := runWord_cases op s
  · exact ⟨_, hw⟩
  · exact ⟨_, hw⟩

/-- A running Step whose fetch answers a word runs that word (R80). -/
theorem step_of_fetch_ok {s : State} {op : Word} (h : s.halt = false) (hf : fetch s = .ok op) :
    step s = runWord op s := by
  simp only [step, cycle, h, hf, Bool.false_eq_true, if_false]

/-- All that a Step can do: nothing in a halted machine, the fetch's fault, or the fetched word (R80 to R82). -/
theorem step_cases (s : State) :
    (s.halt = true ∧ step s = .next s) ∨
      (s.halt = false ∧ ∃ f, fetch s = .error f ∧ step s = .next (raise f s)) ∨
      (s.halt = false ∧ ∃ op, fetch s = .ok op ∧ step s = runWord op s) := by
  cases h : s.halt with
  | true => exact .inl ⟨rfl, step_halted s h⟩
  | false =>
    cases hf : fetch s with
    | error f => exact .inr (.inl ⟨rfl, f, rfl, by simp only [step, cycle, h, hf, Bool.false_eq_true, if_false]⟩)
    | ok op => exact .inr (.inr ⟨rfl, op, rfl, step_of_fetch_ok h hf⟩)

/-- The reported words are those that select nothing, and SYS (R83, R100). -/
theorem reportsUnknown_iff (op : Word) :
    reportsUnknown op = true ↔ (∃ e, decode op = .error e) ∨ ∃ nnn, decode op = .ok (.sys nnn) := by
  unfold reportsUnknown
  cases decode op with
  | error e => simp
  | ok i => cases i <;> simp

/-- A Step answers UnknownOpcode only when it ran a reported word (R87). -/
theorem fetch_of_stepResult_unknownOpcode {s : State} {op : Word} (h : stepResult s = .unknownOpcode op) :
    s.halt = false ∧ fetch s = .ok op ∧ reportsUnknown op = true := by
  unfold stepResult at h
  cases hh : s.halt with
  | true => simp [hh] at h
  | false =>
    cases hf : fetch s with
    | error f => simp [hh, hf] at h
    | ok w =>
      cases hr : reportsUnknown w with
      | true =>
        obtain rfl : w = op := by simpa [hh, hf, hr] using h
        exact ⟨rfl, rfl, hr⟩
      | false =>
        obtain ⟨t, hw⟩ := runWord_next w s
        simp only [hh, hf, hr, hw, Bool.false_eq_true, if_false] at h
        split at h <;> cases h

/-- A reported word is run as `unknownOpcode` and the tick (R83). -/
theorem runWord_of_reportsUnknown {op : Word} (s : State) (h : reportsUnknown op = true) :
    runWord op s = .next (afterExecute (unknownOpcode s)) := by
  obtain ⟨e, hd⟩ | ⟨nnn, hd⟩ := (reportsUnknown_iff op).mp h
  · simp only [runWord, hd]
  · simp only [runWord, hd, exec, execSys]

/-- The tick does not touch UNK, so neither does the Step's last phase. -/
@[simp] theorem afterExecute_unk (t : State) : (afterExecute t).unk = t.unk := by
  unfold afterExecute
  split <;> rfl

theorem exec_keeps_unk {i : Instr} {s t : State} (h : exec i s = .next t) (hu : s.unk = true) : t.unk = true := by
  obtain ⟨-, -, -, -, -, -, hunk, -⟩ | ⟨f, -, rfl⟩ := exec_next_cases h
  · exact hunk hu
  · exact hu

theorem step_keeps_unk {s t : State} (h : step s = .next t) (hu : s.unk = true) : t.unk = true := by
  obtain ⟨-, hs⟩ | ⟨-, f, -, hs⟩ | ⟨-, op, -, hs⟩ := step_cases s
  · cases hs.symm.trans h
    exact hu
  · cases hs.symm.trans h
    exact hu
  · obtain ⟨e, -, hw⟩ | ⟨i, u, -, hx, hw⟩ := runWord_cases op s
    · cases (hs.trans hw).symm.trans h
      simp
    · cases (hs.trans hw).symm.trans h
      simpa using exec_keeps_unk hx hu

@[simp] theorem hostLoad_unk (bytes : List Byte) (s : State) : (hostLoad bytes s).unk = s.unk := by
  unfold hostLoad
  split <;> rfl

/-- Settles O9: UNK is set by `unknownOpcode`, which every reported word runs; each other operation but Reset keeps
it. -/
theorem unkIsSticky : Obligations.UnkIsSticky := by
  refine ⟨fun s t op hr hs => ?_, fun o s t hp ho hu => ?_, fun s t hp => ?_⟩
  · obtain ⟨hh, hf, hrep⟩ := fetch_of_stepResult_unknownOpcode hr
    have hstep := (step_of_fetch_ok hh hf).trans (runWord_of_reportsUnknown s hrep)
    cases hstep.symm.trans hs
    simp
  · cases o with
    | reset => exact absurd rfl ho
    | step => exact step_keeps_unk hp hu
    | load bytes => cases hp; simpa using hu
    | setKeys k => cases hp; exact hu
    | clearRedraw => cases hp; exact hu
    | clearBeep => cases hp; exact hu
  · cases hp
    rfl

/-! ### Registers: what each family of instructions writes -/

theorem getReg_regResult_of_ne (s : State) {x y : Nibble} (result : Byte) (hx : y ≠ x) :
    getReg (regResult x result s) y = getReg s y := getReg_setReg_of_ne s x y result hx

theorem getReg_flaggedResult_of_ne (s : State) {x y : Nibble} (result flag : Byte) (hx : y ≠ x) (hvf : y ≠ vf) :
    getReg (flaggedResult x result flag s) y = getReg s y := by
  rw [flaggedResult, getReg_advance, getReg_setResultThenFlag, if_neg hvf, if_neg hx]

@[simp] theorem getReg_flaggedResult_vf (s : State) (x : Nibble) (result flag : Byte) :
    getReg (flaggedResult x result flag s) vf = flag := getReg_setReg_same _ vf flag

theorem getReg_drawPixels_of_ne (s : State) (pixels : List Nat) {y : Nibble} (hvf : y ≠ vf) :
    getReg (drawPixels pixels s) y = getReg s y := getReg_setReg_of_ne s vf y _ hvf

@[simp] theorem getReg_drawPixels_vf (s : State) (pixels : List Nat) :
    getReg (drawPixels pixels s) vf = flagByte (blit drwCollision s.disp pixels).2 := getReg_setReg_same s vf _

theorem getReg_loadRegs_of_length_le (s : State) (bytes : List Byte) (x : Nibble) (h : bytes.length ≤ x.toNat) :
    getReg (setRegs s (loadRegs s.v 0 bytes)) x = getReg s x := by
  rw [getReg_loadRegs, dif_neg (Nat.not_lt.mpr h)]

/-- A checked instruction's next state is its own, or the fault taken in the state at the start (R86). -/
theorem orRaise_next_cases {s t : State} {r : Except Fault State} (h : orRaise s r = .next t) :
    r = .ok t ∨ ∃ f, r = .error f ∧ t = raise f s := by
  cases r with
  | ok u => exact .inl (congrArg _ (Host.Outcome.next.inj h))
  | error f => exact .inr ⟨f, rfl, (Host.Outcome.next.inj h).symm⟩

/-- A taken fault keeps every register, so a checked instruction keeps the registers its own next state keeps. -/
theorem orRaise_keeps_reg {s t : State} {r : Except Fault State} {x : Nibble} (h : orRaise s r = .next t)
    (hok : ∀ u, r = .ok u → getReg u x = getReg s x) : getReg t x = getReg s x := by
  obtain hr | ⟨f, -, rfl⟩ := orRaise_next_cases h
  · exact hok t hr
  · rfl

theorem returnFromCall_keeps_reg {s u : State} (x : Nibble) (h : returnFromCall s = .ok u) :
    getReg u x = getReg s x := by
  obtain h0 | ⟨n, hn⟩ : s.sp.val = 0 ∨ ∃ n, s.sp.val = n + 1 := by cases s.sp.val <;> simp
  · simp [returnFromCall, popEntry_empty s h0] at h
  · rw [returnFromCall, popEntry_ok s n (by omega) hn] at h
    cases h
    rfl

theorem callAddress_keeps_reg {nnn : Addr} {s u : State} (x : Nibble) (h : callAddress nnn s = .ok u) :
    getReg u x = getReg s x := by
  obtain hs | hs : s.sp.val < 16 ∨ s.sp.val = 16 := by omega
  · rw [callAddress, pushPc_ok s hs] at h
    cases h
    rfl
  · simp [callAddress, pushPc_full s hs] at h

theorem skipOnKey_keeps_reg {y : Nibble} {wanted : Bool} {s u : State} (x : Nibble)
    (h : skipOnKey y wanted s = .ok u) : getReg u x = getReg s x := by
  unfold skipOnKey at h
  cases hk : keyOperand (getReg s y) with
  | error f => rw [hk] at h; cases h
  | ok k => rw [hk] at h; cases h; rfl

theorem storeAtIndex_keeps_reg {bytes : List Byte} {k : Nat} {s u : State} (x : Nibble)
    (h : storeAtIndex bytes k s = .ok u) : getReg u x = getReg s x := by
  obtain ⟨m, -, e⟩ | e := storeAtIndex_cases bytes k s <;> cases e.symm.trans h
  rfl

theorem loadAtIndex_keeps_reg {count : Nat} {s u : State} {x : Nibble} (hx : count ≤ x.toNat)
    (h : loadAtIndex count s = .ok u) : getReg u x = getReg s x := by
  obtain e | e := loadAtIndex_cases count s <;> cases e.symm.trans h
  exact getReg_loadRegs_of_length_le s _ x (by simpa using hx)

/-- A draw that is not a fault is `drawPixels` of the checked pixels (R152). -/
theorem execDrw_next_cases {x y n : Nibble} {s t : State} (h : exec (.drw x y n) s = .next t) :
    (∃ pixels, t = drawPixels pixels s) ∨ ∃ f, t = raise f s := by
  obtain hr | ⟨f, -, rfl⟩ := orRaise_next_cases h
  · cases hp : spriteChecked s (getReg s x).toNat (getReg s y).toNat n.toNat with
    | error f => rw [hp] at hr; cases hr
    | ok pixels => rw [hp] at hr; exact .inl ⟨pixels, (Except.ok.inj hr).symm⟩
  · exact .inr ⟨f, rfl⟩

/-! ### The register frame over all instructions (R12) -/

/-- A register that is neither a destination nor VF as a flag keeps its value. -/
theorem exec_keeps_reg {i : Instr} {s t : State} {r : Nibble} (h : exec i s = .next t) (hd : ¬ IsDestination i r)
    (hf : ¬ (WritesFlag i ∧ r = vf)) : getReg t r = getReg s r := by
  cases i with
  | sys | cls | jp | jpV0 | seImm | sneImm | seReg | sneReg | ldI | addI | ldF | ldDtVx | ldStVx =>
    obtain rfl := Host.Outcome.next.inj h
    rfl
  | ldImm | addImm | ldReg | orReg | andReg | xorReg | rnd =>
    obtain rfl := Host.Outcome.next.inj h
    exact getReg_regResult_of_ne s _ hd
  | ldVxDt x =>
    obtain rfl := Host.Outcome.next.inj h
    exact getReg_setReg_of_ne s x r _ hd
  | addReg | sub | shr | subn | shl =>
    have hvf : r ≠ vf := fun e => hf ⟨trivial, e⟩
    obtain rfl := Host.Outcome.next.inj h
    exact getReg_flaggedResult_of_ne s _ _ hd hvf
  | drw x y n =>
    have hvf : r ≠ vf := fun e => hf ⟨trivial, e⟩
    obtain ⟨pixels, rfl⟩ | ⟨f, rfl⟩ := execDrw_next_cases h
    · exact getReg_drawPixels_of_ne s pixels hvf
    · rfl
  | ldVxK x =>
    simp only [exec, execLdVxK] at h
    split at h <;> cases h
    · exact getReg_setReg_of_ne s x r _ hd
    · rfl
  | ret => exact orRaise_keeps_reg h fun _ => returnFromCall_keeps_reg r
  | call => exact orRaise_keeps_reg h fun _ => callAddress_keeps_reg r
  | skp | sknp => exact orRaise_keeps_reg h fun _ => skipOnKey_keeps_reg r
  | ldB | ldMemVx => exact orRaise_keeps_reg h fun _ => storeAtIndex_keeps_reg r
  | ldVxMem x => exact orRaise_keeps_reg h fun _ => loadAtIndex_keeps_reg (Nat.lt_of_not_le hd)

theorem flagByte_eq_zero_or_one (b : Bool) : flagByte b = 0 ∨ flagByte b = 1 := by
  cases b
  · exact .inl rfl
  · exact .inr rfl

/-- What a flag-writing instruction leaves in VF when it takes no fault is a flag (R12). -/
theorem exec_flag_eq_flagByte {i : Instr} {s t : State} (h : exec i s = .next t) (ht : t.halt = false)
    (hw : WritesFlag i) : ∃ b, getReg t vf = flagByte b := by
  cases i with
  | addReg | sub | shr | subn | shl =>
    obtain rfl := Host.Outcome.next.inj h
    exact ⟨_, getReg_flaggedResult_vf s _ _ _⟩
  | drw x y n =>
    obtain ⟨pixels, rfl⟩ | ⟨f, rfl⟩ := execDrw_next_cases h
    · exact ⟨_, getReg_drawPixels_vf s pixels⟩
    · cases ht
  | _ => exact hw.elim

/-- Settles O26: the register frame by the families of instructions, and a flag is 0 or 1. -/
theorem vfIsWrittenByTheSixAlone : Obligations.VfIsWrittenByTheSixAlone := by
  refine ⟨fun _ _ _ _ h hd hf => exec_keeps_reg h hd hf, fun i s t _ h ht hw => ?_⟩
  obtain ⟨b, hb⟩ := exec_flag_eq_flagByte h ht hw
  exact hb ▸ flagByte_eq_zero_or_one b

end Sys2Proof.Machine
end

section
/-! SUPPORT. The block store LD [I], Vx inside memory, and the proof of the statement about fetching what it stored
(20_memory.md R43, R53). -/

namespace Sys2Proof.Machine

/-- The next state of `LD [I], Vx` when its run lies inside memory (R144). -/
def blockStored (x : Nibble) (s : State) : State :=
  advance (setIndex (setMem s (Memory.writeRun s.mem s.i.toNat (storedRegs s.v x)))
    (BitVec.ofNat 16 (s.i.toNat + rangeLength x)))

@[simp] theorem blockStored_pc (x : Nibble) (s : State) : (blockStored x s).pc = s.pc + 2 := rfl

theorem storeAtIndex_ok (bytes : List Byte) (k : Nat) (s : State) (h : s.i.toNat + bytes.length ≤ Config.memSize) :
    storeAtIndex bytes k s = .ok (advance (setIndex (setMem s (Memory.writeRun s.mem s.i.toNat bytes))
      (BitVec.ofNat 16 (s.i.toNat + k)))) := by
  simp only [storeAtIndex, indexAddress, Nat.add_zero, writeChecked_ok _ _ _ (Or.inr h)]

/-- A block store whose last address is in memory passes its check (R41, R86). -/
theorem exec_ldMemVx_inside {x : Nibble} {s : State} (h : s.i.toNat + x.toNat < Config.memSize) :
    exec (.ldMemVx x) s = .next (blockStored x s) := by
  have hrun : s.i.toNat + (storedRegs s.v x).length ≤ Config.memSize := by
    rw [storedRegs_length]
    exact h
  simp only [exec, execLdMemVx, storeAtIndex_ok _ _ _ hrun, orRaise, blockStored]

/-- The block store puts V[k] at I + k, for k up to X (R144). -/
theorem read_blockStored {x k : Nibble} {s : State} (hm : Memory.wf s.mem)
    (h : s.i.toNat + x.toNat < Config.memSize) (hk : k.toNat ≤ x.toNat) :
    Memory.read (blockStored x s).mem (s.i.toNat + k.toNat) = getReg s k := by
  have hlen := storedRegs_length s.v x
  have hkl : k.toNat < (storedRegs s.v x).length := by omega
  calc Memory.read (blockStored x s).mem (s.i.toNat + k.toNat)
      = (storedRegs s.v x)[k.toNat] := read_writeRun_inside _ _ _ _ hm (by omega) hkl
    _ = getReg s k := storedRegs_getElem s x k hkl

/-- Settles O28: the PC after the store is I, where V0 and V1 stand, and the fetch joins them big-endian (R42, R53). -/
theorem storesAreSeenByTheNextFetch : Obligations.StoresAreSeenByTheNextFetch := by
  intro s x hm hi hx hend
  have hin : s.i.toNat + x.toNat < Config.memSize := Nat.lt_succ_of_le hend
  have hpc : (blockStored x s).pc.toNat = s.i.toNat := by
    rw [blockStored_pc, BitVec.toNat_add, hi]
    exact Nat.mod_eq_of_lt (show s.pc.toNat + 2 < 65536 by omega)
  have h0 : Memory.read (blockStored x s).mem s.i.toNat = getReg s 0 :=
    read_blockStored hm hin (k := 0) (Nat.zero_le _)
  have h1 : Memory.read (blockStored x s).mem (s.i.toNat + 1) = getReg s 1 := read_blockStored hm hin (k := 1) hx
  have hfetch : fetch (blockStored x s) = .ok (wordOfBytes (getReg s 0) (getReg s 1)) := by
    rw [fetch_ok _ (by omega), hpc, h0, h1]
  exact ⟨_, _, exec_ldMemVx_inside hin, hfetch, wordOfBytes_toNat _ _⟩

end Sys2Proof.Machine
end

section
/-! SUPPORT. Decode and encode, each undoing the other, and the proofs of the statements about the encoding
(30_encoding.md R60 to R67). -/

namespace Sys2Proof

/-! ### Decode of a word of each format (R62) -/

theorem decode_wordNNN (op : Nibble) (nnn : Addr) :
    decode (wordNNN op nnn) = decodeFields op (fieldX (wordNNN op nnn)) (fieldY (wordNNN op nnn))
      (fieldN (wordNNN op nnn)) (fieldNN (wordNNN op nnn)) nnn := by
  rw [decode, fieldOp_wordNNN, fieldNNN_wordNNN]

theorem decode_wordXNN (op x : Nibble) (nn : Byte) :
    decode (wordXNN op x nn) = decodeFields op x (fieldY (wordXNN op x nn)) (fieldN (wordXNN op x nn)) nn
      (fieldNNN (wordXNN op x nn)) := by
  rw [decode, fieldOp_wordXNN, fieldX_wordXNN, fieldNN_wordXNN]

theorem decode_wordXYN (op x y n : Nibble) :
    decode (wordXYN op x y n) = decodeFields op x y n (fieldNN (wordXYN op x y n)) (fieldNNN (wordXYN op x y n)) := by
  rw [decode, fieldOp_wordXYN, fieldX_wordXYN, fieldY_wordXYN, fieldN_wordXYN]

/-! ### From the instruction to the word and back -/

/-- The two fixed words are the only ones primary opcode 0 keeps from SYS (R67). -/
theorem decodeZero_of_sysAddressOk {nnn : Addr} (h : sysAddressOk nnn = true) : decodeZero nnn = .sys nnn := by
  obtain ⟨hcls, hret⟩ : nnn ≠ 0x0E0#12 ∧ nnn ≠ 0x0EE#12 := by simpa [sysAddressOk] using h
  rw [decodeZero, if_neg hcls, if_neg hret]

/-- Decode undoes encode: the format of the word gives decode the fields it was built from, and the fixed fields select its
row. -/
theorem decode_encode {i : Instr} (h : WellFormed i = true) : decode (encode i) = .ok i := by
  cases i with
  | sys nnn => exact (decode_wordNNN _ nnn).trans (congrArg Except.ok (decodeZero_of_sysAddressOk h))
  | cls | ret => rfl
  | jp | call | ldI | jpV0 => exact (decode_wordNNN _ _).trans rfl
  | seImm | sneImm | ldImm | addImm | rnd | skp | sknp | ldVxDt | ldVxK | ldDtVx | ldStVx | addI | ldF
  | ldB | ldMemVx | ldVxMem =>
    exact (decode_wordXNN _ _ _).trans rfl
  | seReg | ldReg | orReg | andReg | xorReg | addReg | sub | shr | subn | shl | sneReg | drw =>
    exact (decode_wordXYN _ _ _ _).trans rfl

/-- The decoder over bytes reads a word it finds in memory order, and nothing of what follows (R42, R68). -/
theorem decodeBytes_bytesOfWord_append (w : Word) (rest : List Byte) :
    decodeBytes (bytesOfWord w ++ rest) = some (decode w, rest) := by
  simp only [bytesOfWord, List.cons_append, List.nil_append, decodeBytes, wordOfBytes_bytesOfWord]

/-- Settles O10: the two bytes join to the word, and the word decodes to the instruction. -/
theorem decodeOfEncodeIsTheInstruction : Obligations.DecodeOfEncodeIsTheInstruction := by
  intro i rest h
  rw [decodeBytes_bytesOfWord_append, decode_encode h]

/-! ### From the word to the instruction and back -/

/-- A row that checks one field answers its instruction only when the check passes. -/
theorem ite_eq_ok {p : Prop} [Decidable p] {i j : Instr} {e : UnknownWord}
    (h : (if p then Except.ok j else Except.error e) = Except.ok i) : p ∧ j = i := by
  split at h
  case isTrue hp => exact ⟨hp, Except.ok.inj h⟩
  case isFalse => cases h

theorem decodeZero_ok (nnn : Addr) :
    WellFormed (decodeZero nnn) = true ∧ encode (decodeZero nnn) = wordNNN 0x0#4 nnn := by
  unfold decodeZero
  split
  case isTrue hcls => exact ⟨rfl, hcls ▸ rfl⟩
  case isFalse hcls =>
    split
    case isTrue hret => exact ⟨rfl, hret ▸ rfl⟩
    case isFalse hret => exact ⟨by simp [WellFormed, sysAddressOk, hcls, hret], rfl⟩

theorem decodeArithmetic_ok {x y n : Nibble} {i : Instr} (h : decodeArithmetic x y n = .ok i) :
    WellFormed i = true ∧ encode i = wordXYN 0x8#4 x y n := by
  unfold decodeArithmetic at h
  split_ifs at h <;> cases h
  all_goals exact ⟨rfl, by subst n; rfl⟩

theorem decodeKeySkip_ok {x : Nibble} {nn : Byte} {i : Instr} (h : decodeKeySkip x nn = .ok i) :
    WellFormed i = true ∧ encode i = wordXNN 0xE#4 x nn := by
  unfold decodeKeySkip at h
  split_ifs at h <;> cases h
  all_goals exact ⟨rfl, by subst nn; rfl⟩

theorem decodeMiscellaneous_ok {x : Nibble} {nn : Byte} {i : Instr} (h : decodeMiscellaneous x nn = .ok i) :
    WellFormed i = true ∧ encode i = wordXNN 0xF#4 x nn := by
  unfold decodeMiscellaneous at h
  split_ifs at h <;> cases h
  all_goals exact ⟨rfl, by subst nn; rfl⟩

/-- What decode answers is well formed, and its word is built from the fields in one of the three formats of R62. -/
theorem decodeFields_ok {op x y n : Nibble} {nn : Byte} {nnn : Addr} {i : Instr}
    (h : decodeFields op x y n nn nnn = .ok i) :
    WellFormed i = true ∧ (encode i = wordNNN op nnn ∨ encode i = wordXNN op x nn ∨ encode i = wordXYN op x y n) := by
  -- The sixteen primary opcodes, in their order in R65.
  obtain rfl | rfl | rfl | rfl | rfl | rfl | rfl | rfl | rfl | rfl | rfl | rfl | rfl | rfl | rfl | rfl :=
    nibble_cases op
  · cases h; exact (decodeZero_ok nnn).imp_right .inl
  · cases h; exact ⟨rfl, .inl rfl⟩
  · cases h; exact ⟨rfl, .inl rfl⟩
  · cases h; exact ⟨rfl, .inr (.inl rfl)⟩
  · cases h; exact ⟨rfl, .inr (.inl rfl)⟩
  · obtain ⟨rfl, rfl⟩ := ite_eq_ok h; exact ⟨rfl, .inr (.inr rfl)⟩
  · cases h; exact ⟨rfl, .inr (.inl rfl)⟩
  · cases h; exact ⟨rfl, .inr (.inl rfl)⟩
  · exact (decodeArithmetic_ok h).imp_right (.inr ∘ .inr)
  · obtain ⟨rfl, rfl⟩ := ite_eq_ok h; exact ⟨rfl, .inr (.inr rfl)⟩
  · cases h; exact ⟨rfl, .inl rfl⟩
  · cases h; exact ⟨rfl, .inl rfl⟩
  · cases h; exact ⟨rfl, .inr (.inl rfl)⟩
  · cases h; exact ⟨rfl, .inr (.inr rfl)⟩
  · exact (decodeKeySkip_ok h).imp_right (.inr ∘ .inl)
  · exact (decodeMiscellaneous_ok h).imp_right (.inr ∘ .inl)

/-- Encode undoes decode. -/
theorem encode_of_decode {w : Word} {i : Instr} (h : decode w = .ok i) : WellFormed i = true ∧ encode i = w := by
  obtain ⟨hwf, hw | hw | hw⟩ := decodeFields_ok h
  · exact ⟨hwf, hw.trans (wordNNN_fields w)⟩
  · exact ⟨hwf, hw.trans (wordXNN_fields w)⟩
  · exact ⟨hwf, hw.trans (wordXYN_fields w)⟩

/-- Settles O11: the fields of the format that was decoded are all of the word, so the word built from
them again is that word. -/
theorem encodeOfDecodeIsTheWord : Obligations.EncodeOfDecodeIsTheWord := fun _ _ h => encode_of_decode h

/-! ### The words that match no row (R66) -/

theorem fieldOp_toNat (w : Word) : (fieldOp w).toNat = w.toNat / 4096 := by
  have hw := w.isLt
  rw [fieldOp, BitVec.extractLsb'_toNat, Nat.shiftRight_eq_div_pow]
  omega

theorem fieldN_toNat (w : Word) : (fieldN w).toNat = w.toNat % 16 := BitVec.extractLsb'_toNat ..

theorem fieldNN_toNat (w : Word) : (fieldNN w).toNat = w.toNat % 256 := BitVec.extractLsb'_toNat ..

/-- A row that checks one field refuses exactly when the check fails. -/
theorem exists_ite_eq_error_iff (p : Prop) [Decidable p] (j : Instr) (e : UnknownWord) :
    (∃ u, (if p then Except.ok j else Except.error e) = Except.error u) ↔ ¬ p := by
  split
  case isTrue hp => simp [hp]
  case isFalse hp => simp [hp]

theorem decodeArithmetic_error_iff (x y n : Nibble) :
    (∃ u, decodeArithmetic x y n = .error u) ↔ n.toNat ∈ [8, 9, 0xA, 0xB, 0xC, 0xD, 0xF] := by
  obtain rfl | rfl | rfl | rfl | rfl | rfl | rfl | rfl | rfl | rfl | rfl | rfl | rfl | rfl | rfl | rfl :=
    nibble_cases n <;> simp [decodeArithmetic]

theorem decodeKeySkip_error_iff (x : Nibble) (nn : Byte) :
    (∃ u, decodeKeySkip x nn = .error u) ↔ nn.toNat ∉ [0x9E, 0xA1] := by
  unfold decodeKeySkip
  split_ifs <;> simp_all [BitVec.toNat_eq]

theorem decodeMiscellaneous_error_iff (x : Nibble) (nn : Byte) :
    (∃ u, decodeMiscellaneous x nn = .error u) ↔
      nn.toNat ∉ [0x07, 0x0A, 0x15, 0x18, 0x1E, 0x29, 0x33, 0x55, 0x65] := by
  unfold decodeMiscellaneous
  split_ifs <;> simp_all [BitVec.toNat_eq]

/-- Five primary opcodes have words that match no row: two check that N is 0, three look up a secondary opcode. -/
theorem decodeFields_error_iff (op x y n : Nibble) (nn : Byte) (nnn : Addr) :
    (∃ u, decodeFields op x y n nn nnn = .error u) ↔
      (op.toNat = 5 ∧ n.toNat ≠ 0) ∨
        (op.toNat = 8 ∧ n.toNat ∈ [8, 9, 0xA, 0xB, 0xC, 0xD, 0xF]) ∨
        (op.toNat = 9 ∧ n.toNat ≠ 0) ∨
        (op.toNat = 0xE ∧ nn.toNat ∉ [0x9E, 0xA1]) ∨
        (op.toNat = 0xF ∧ nn.toNat ∉ [0x07, 0x0A, 0x15, 0x18, 0x1E, 0x29, 0x33, 0x55, 0x65]) := by
  rw [← decodeArithmetic_error_iff x y, ← decodeKeySkip_error_iff x, ← decodeMiscellaneous_error_iff x]
  obtain rfl | rfl | rfl | rfl | rfl | rfl | rfl | rfl | rfl | rfl | rfl | rfl | rfl | rfl | rfl | rfl :=
    nibble_cases op <;> simp [decodeFields, exists_ite_eq_error_iff, BitVec.toNat_eq]

/-- Settles O12: decode refuses by the fields, and a field is a hexadecimal digit, or two, of the word. -/
theorem unknownWordsAreTheTabledOnes : Obligations.UnknownWordsAreTheTabledOnes := by
  intro w
  rw [← fieldOp_toNat, ← fieldN_toNat, ← fieldNN_toNat]
  exact decodeFields_error_iff ..

/-- Settles O13: fourteen closed words, each computed from the bytes it is laid out as. -/
theorem sampleWordsDecode : Obligations.SampleWordsDecode := by
  unfold Obligations.SampleWordsDecode
  decide

end Sys2Proof
end

section
/-! SUPPORT. Assembling what was disassembled, and the proof of the statement about it (30_encoding.md R69). -/

namespace Sys2Proof.Machine

theorem assemble_disassemble {i : Instr} (h : WellFormed i = true) :
    assemble (disassemble i).1 (disassemble i).2 = some i := by
  cases i with
  | sys nnn => exact if_pos h
  | _ => rfl

/-- Settles O14: the mnemonic and the kinds of its operands select the row, and of the two rows that check an operand, SYS
passes because it is well formed and `JP V0` because it writes V0. -/
theorem assembleOfDisassembleIsTheInstruction : Obligations.AssembleOfDisassembleIsTheInstruction :=
  fun _ h => assemble_disassemble h

end Sys2Proof.Machine
end

section
/-! SUPPORT. Frames: how `KeepsAllBut` composes, and what each shared operation keeps; and what the checked control
transfers can do. -/

namespace Sys2Proof.Machine

/-! ### Frames -/

theorem Element.Same.trans {e : Element} {s t u : State} (hst : e.Same s t) (htu : e.Same t u) : e.Same s u := by
  cases e with
  | mem | v => exact fun a => (htu a).trans (hst a)
  | _ => exact Eq.trans htu hst

/-- One operation after another writes what either writes. -/
theorem KeepsAllBut.trans {w w' : List Element} {s t u : State} (hst : KeepsAllBut w s t) (htu : KeepsAllBut w' t u) :
    KeepsAllBut (w ++ w') s u := fun e he =>
  (hst e fun h => he (List.mem_append_left _ h)).trans (htu e fun h => he (List.mem_append_right _ h))

theorem setReg_keepsAllBut (s : State) (x : Nibble) (b : Byte) : KeepsAllBut [.v] s (setReg s x b) := by
  intro e he
  cases e with
  | v => simp at he
  | mem => exact fun _ => rfl
  | _ => rfl

theorem setDelay_keepsAllBut (s : State) (b : Byte) : KeepsAllBut [.dt] s (setDelay s b) := by
  intro e he
  cases e with
  | dt => simp at he
  | mem | v => exact fun _ => rfl
  | _ => rfl

theorem setSound_keepsAllBut (s : State) (b : Byte) : KeepsAllBut [.st] s (setSound s b) := by
  intro e he
  cases e with
  | st => simp at he
  | mem | v => exact fun _ => rfl
  | _ => rfl

theorem advance_keepsAllBut (s : State) : KeepsAllBut [.pc] s (advance s) := by
  intro e he
  cases e with
  | pc => simp at he
  | mem | v => exact fun _ => rfl
  | _ => rfl

theorem unknownOpcode_keepsAllBut (s : State) : KeepsAllBut [.unk, .pc] s (unknownOpcode s) := by
  intro e he
  cases e with
  | unk | pc => simp at he
  | mem | v => exact fun _ => rfl
  | _ => rfl

theorem tick_keepsAllBut (s : State) : KeepsAllBut [.dt, .st, .beep] s (tick s) := by
  intro e he
  cases e with
  | dt | st | beep => simp at he
  | mem | v => exact fun _ => rfl
  | _ => rfl

/-- Fault entry is precise (R181). -/
theorem raise_faultTaken (f : Fault) (s : State) : FaultTaken f.code f.info s (raise f s) := by
  refine ⟨rfl, rfl, rfl, fun e he => ?_⟩
  cases e with
  | halt | fcause | finfo => simp at he
  | mem | v => exact fun _ => rfl
  | _ => rfl

/-! ### The checked control transfers: all they can do (R101, R103) -/

/-- SP is 0, or the number of a used entry and one (R16). -/
theorem sp_cases (s : State) : s.sp.val = 0 ∨ ∃ n, n < 16 ∧ s.sp.val = n + 1 := by
  cases h : s.sp.val with
  | zero => exact .inl rfl
  | succ n => exact .inr ⟨n, by omega, rfl⟩

theorem returnFromCall_empty (s : State) (h : s.sp.val = 0) : returnFromCall s = .error .stackUnderflow := by
  simp only [returnFromCall, popEntry_empty s h]

theorem returnFromCall_ok (s : State) (n : Nat) (hn : n < 16) (h : s.sp.val = n + 1) :
    returnFromCall s = .ok (setPc (setStack s s.stack ⟨n, by omega⟩) (s.stack[n] + 2)) := by
  simp only [returnFromCall, popEntry_ok s n hn h]

theorem callAddress_ok (nnn : Addr) (s : State) (h : s.sp.val < 16) :
    callAddress nnn s = .ok (setPc (setStack s (s.stack.set s.sp.val s.pc h) ⟨s.sp.val + 1, Nat.succ_lt_succ h⟩)
      (addrOperand nnn)) := by
  simp only [callAddress, pushPc_ok s h]

theorem callAddress_full (nnn : Addr) (s : State) (h : s.sp.val = 16) :
    callAddress nnn s = .error .stackOverflow := by
  simp only [callAddress, pushPc_full s h]

/-- A checked instruction that leaves the machine running ended in its own next state (R86). -/
theorem orRaise_ok_of_running {s t : State} {r : Except Fault State} (h : orRaise s r = .next t)
    (ht : t.halt = false) : r = .ok t := by
  obtain hr | ⟨f, -, rfl⟩ := orRaise_next_cases h
  · exact hr
  · cases ht

end Sys2Proof.Machine
end

section
/-! SUPPORT. The phases of the Step and its result, and the proofs of the statements about them (40_step_cycle.md R80 to
R87, 45_keypad_timers.md R163 to R165). -/

namespace Sys2Proof.Machine

/-! ### The last phase -/

theorem afterExecute_of_running {t : State} (h : t.halt = false) : afterExecute t = tick t := if_neg (by simp [h])

@[simp] theorem afterExecute_halt (t : State) : (afterExecute t).halt = t.halt := by
  unfold afterExecute
  split <;> rfl

/-! ### One Step -/

/-- A Step of a fetched instruction is its execute phase and the last phase (R80). -/
theorem step_of_decode {s t : State} {op : Word} {i : Instr} (h : s.halt = false) (hf : fetch s = .ok op)
    (hd : decode op = .ok i) (hx : exec i s = .next t) : step s = .next (afterExecute t) := by
  rw [step_of_fetch_ok h hf]
  simp only [runWord, hd, hx]

/-- A Step of a reported word is the event and the tick (R83). -/
theorem step_of_reportsUnknown {s : State} {op : Word} (h : s.halt = false) (hf : fetch s = .ok op)
    (hr : reportsUnknown op = true) : step s = .next (tick (unknownOpcode s)) := by
  rw [step_of_fetch_ok h hf, runWord_of_reportsUnknown s hr, afterExecute_of_running (t := unknownOpcode s) h]

/-- From a running state only a taken fault ends the execute phase halted (R86). -/
theorem exec_eq_raise_of_halt {i : Instr} {s t : State} (h : s.halt = false) (hx : exec i s = .next t)
    (ht : t.halt = true) : ∃ f, t = raise f s := by
  obtain ⟨hhalt, -⟩ | ⟨f, -, rfl⟩ := exec_next_cases hx
  · simp [hhalt, h] at ht
  · exact ⟨f, rfl⟩

/-- Only a taken fault halts a running machine (R86). -/
theorem step_eq_raise_of_halt {s t : State} (h : s.halt = false) (hs : step s = .next t) (ht : t.halt = true) :
    ∃ f, t = raise f s := by
  obtain ⟨hh, -⟩ | ⟨-, f, -, hw⟩ | ⟨-, op, -, hop⟩ := step_cases s
  · simp [h] at hh
  · exact ⟨f, Host.Outcome.next.inj (hs.symm.trans hw)⟩
  · obtain ⟨e, -, hw⟩ | ⟨i, u, -, hx, hw⟩ := runWord_cases op s
    · obtain rfl := Host.Outcome.next.inj (hs.symm.trans (hop.trans hw))
      simp [h] at ht
    · obtain rfl := Host.Outcome.next.inj (hs.symm.trans (hop.trans hw))
      have hu : u.halt = true := by simpa using ht
      obtain ⟨f, rfl⟩ := exec_eq_raise_of_halt h hx hu
      exact ⟨f, rfl⟩

/-- Settles O16: `step_of_decode` for the word that `fetch_ok` reads. -/
theorem stepRunsTheDecodedInstruction : Obligations.StepRunsTheDecodedInstruction := by
  intro s i h hpc hd
  obtain ⟨t, hx, -⟩ := exec_cases i s
  rw [step_of_decode h (fetch_ok s (Nat.lt_succ_of_le hpc)) hd hx, hx]
  rfl

/-- Settles O19: the tick's effect, and the two ways in which a fetched word is run; the tick follows because the state
before it was already running. -/
theorem tickEndsEveryFaultFreeStep : Obligations.TickEndsEveryFaultFreeStep := by
  refine ⟨fun s => ⟨countDown_toNat s.dt, countDown_toNat s.st, by simp, tick_keepsAllBut s⟩, fun s u h hs hu => ?_⟩
  obtain ⟨hh, -⟩ | ⟨-, f, -, hw⟩ | ⟨-, op, hf, hop⟩ := step_cases s
  · simp [h] at hh
  · obtain rfl := Host.Outcome.next.inj (hs.symm.trans hw)
    cases hu
  · obtain ⟨e, hd, hw⟩ | ⟨i, t, hd, hx, hw⟩ := runWord_cases op s
    · obtain rfl := Host.Outcome.next.inj (hs.symm.trans (hop.trans hw))
      exact ⟨op, unknownOpcode s, hf, afterExecute_of_running h, .inl ⟨⟨e, hd⟩, rfl⟩⟩
    · obtain rfl := Host.Outcome.next.inj (hs.symm.trans (hop.trans hw))
      have ht : t.halt = false := by simpa using hu
      exact ⟨op, t, hf, afterExecute_of_running ht, .inr ⟨i, hd, hx⟩⟩

/-! ### The result of a Step (R87) -/

theorem stepResult_halted {s : State} (h : s.halt = true) : stepResult s = .fault 7 0 := by
  simp only [stepResult, h, if_true]

theorem stepResult_of_fetch_error {s : State} {f : Fault} (h : s.halt = false) (hf : fetch s = .error f) :
    stepResult s = .fault f.code f.info := by
  simp only [stepResult, h, hf, Bool.false_eq_true, if_false]

theorem stepResult_of_reportsUnknown {s : State} {op : Word} (h : s.halt = false) (hf : fetch s = .ok op)
    (hr : reportsUnknown op = true) : stepResult s = .unknownOpcode op := by
  simp only [stepResult, h, hf, hr, Bool.false_eq_true, if_false, if_true]

/-- The result of a Step whose word is not reported is read off its next state. -/
theorem stepResult_of_step {s t : State} {op : Word} (h : s.halt = false) (hf : fetch s = .ok op)
    (hr : reportsUnknown op = false) (hs : step s = .next t) :
    stepResult s = if t.halt then .fault t.fcause t.finfo else .done := by
  have hw : runWord op s = .next t := (step_of_fetch_ok h hf).symm.trans hs
  simp only [stepResult, h, hf, hr, hw, Bool.false_eq_true, if_false]

/-- All that a Step can do, with its result: the four rows of R87, where a fetch fault and a fault of the execute phase
are one row. -/
theorem stepResult_cases (s : State) :
    (s.halt = true ∧ stepResult s = .fault 7 0) ∨
      (s.halt = false ∧ ∃ f, step s = .next (raise f s) ∧ stepResult s = .fault f.code f.info) ∨
      (s.halt = false ∧ ∃ op, fetch s = .ok op ∧ reportsUnknown op = true ∧
        step s = .next (tick (unknownOpcode s)) ∧ stepResult s = .unknownOpcode op) ∨
      (s.halt = false ∧ ∃ op t, fetch s = .ok op ∧ reportsUnknown op = false ∧ step s = .next t ∧ t.halt = false ∧
        stepResult s = .done) := by
  obtain ⟨h, -⟩ | ⟨h, f, hf, hs⟩ | ⟨h, op, hf, hop⟩ := step_cases s
  · exact .inl ⟨h, stepResult_halted h⟩
  · exact .inr (.inl ⟨h, f, hs, stepResult_of_fetch_error h hf⟩)
  · cases hr : reportsUnknown op with
    | true =>
      have hs := step_of_reportsUnknown h hf hr
      exact .inr (.inr (.inl ⟨h, op, hf, hr, hs, stepResult_of_reportsUnknown h hf hr⟩))
    | false =>
      obtain ⟨t, hw⟩ := runWord_next op s
      have hs := hop.trans hw
      have hres := stepResult_of_step h hf hr hs
      cases ht : t.halt with
      | false => exact .inr (.inr (.inr ⟨h, op, t, hf, hr, hs, ht, by simpa [ht] using hres⟩))
      | true =>
        obtain ⟨f, rfl⟩ := step_eq_raise_of_halt h hs ht
        exact .inr (.inl ⟨h, f, hs, hres⟩)

/-- A word is not reported exactly when it decodes to an instruction other than SYS (R83, R100). -/
theorem reportsUnknown_eq_false_iff (op : Word) :
    reportsUnknown op = false ↔ ∃ i, decode op = .ok i ∧ ∀ nnn, i ≠ .sys nnn := by
  unfold reportsUnknown
  cases decode op with
  | error e => simp
  | ok i => cases i <;> simp

theorem stepResult_done_iff (s : State) :
    stepResult s = .done ↔ s.halt = false ∧ ∃ op i t, fetch s = .ok op ∧ decode op = .ok i ∧ (∀ nnn, i ≠ .sys nnn) ∧
      step s = .next t ∧ t.halt = false := by
  constructor
  · intro hd
    obtain ⟨-, hr⟩ | ⟨-, f, -, hr⟩ | ⟨-, op, -, -, -, hr⟩ | ⟨h, op, t, hf, hu, hs, ht, -⟩ := stepResult_cases s
    · cases hr.symm.trans hd
    · cases hr.symm.trans hd
    · cases hr.symm.trans hd
    · obtain ⟨i, hi, hsys⟩ := (reportsUnknown_eq_false_iff op).mp hu
      exact ⟨h, op, i, t, hf, hi, hsys, hs, ht⟩
  · rintro ⟨h, op, i, t, hf, hi, hsys, hs, ht⟩
    have hu := (reportsUnknown_eq_false_iff op).mpr ⟨i, hi, hsys⟩
    simp [stepResult_of_step h hf hu hs, ht]

theorem stepResult_unknownOpcode_iff (s : State) (op : Word) :
    stepResult s = .unknownOpcode op ↔ s.halt = false ∧ fetch s = .ok op ∧
      ((∃ u, decode op = .error u) ∨ ∃ nnn, decode op = .ok (.sys nnn)) := by
  rw [← reportsUnknown_iff]
  exact ⟨fetch_of_stepResult_unknownOpcode, fun ⟨h, hf, hr⟩ => stepResult_of_reportsUnknown h hf hr⟩

/-- After an event or a completed instruction the machine still runs, so no fault was taken; the other two rows are
faults. -/
theorem stepResult_fault_iff (s : State) (c : BitVec 3) (w : Word) :
    stepResult s = .fault c w ↔
      (s.halt = true ∧ c = 7 ∧ w = 0) ∨ (s.halt = false ∧ ∃ t, step s = .next t ∧ FaultTaken c w s t) := by
  obtain ⟨h, hr⟩ | ⟨h, f, hs, hr⟩ | ⟨h, op, -, -, hs, hr⟩ | ⟨h, op, t, -, -, hs, ht, hr⟩ := stepResult_cases s
  · constructor
    · intro hd
      obtain ⟨rfl, rfl⟩ := StepResult.fault.inj (hr.symm.trans hd)
      exact .inl ⟨h, rfl, rfl⟩
    · rintro (⟨-, rfl, rfl⟩ | ⟨hh, -⟩)
      · exact hr
      · simp [h] at hh
  · constructor
    · intro hd
      obtain ⟨rfl, rfl⟩ := StepResult.fault.inj (hr.symm.trans hd)
      exact .inr ⟨h, _, hs, raise_faultTaken f s⟩
    · rintro (⟨hh, -⟩ | ⟨-, t, ht, -, hc, hw, -⟩)
      · simp [h] at hh
      · obtain rfl := Host.Outcome.next.inj (hs.symm.trans ht)
        rw [hr, ← hc, ← hw]
        rfl
  · simp [h, hr, hs, FaultTaken]
  · simp [h, hr, hs, ht, FaultTaken]

/-- Settles O21: one equivalence for each result. -/
theorem stepResultSaysWhatHappened : Obligations.StepResultSaysWhatHappened := fun s =>
  ⟨stepResult_done_iff s, stepResult_unknownOpcode_iff s, stepResult_fault_iff s⟩

/-- Settles O17: the reported word runs as the event and the tick, and each of the two writes its own elements. -/
theorem unknownWordIsReportedAndSkipped : Obligations.UnknownWordIsReportedAndSkipped := by
  intro s op h hf hd
  have hr := (reportsUnknown_iff op).mpr hd
  have hpc : (s.pc + 2).toNat = (s.pc.toNat + 2) % 65536 := BitVec.toNat_add ..
  exact ⟨stepResult_of_reportsUnknown h hf hr, _, step_of_reportsUnknown h hf hr, rfl, hpc, countDown_toNat s.dt,
    countDown_toNat s.st, rfl, (unknownOpcode_keepsAllBut s).trans (tick_keepsAllBut _)⟩

/-- A fetch that leaves memory is fault 4 with its lowest address above 4095, taken and answered (R82, R170, R181). -/
theorem step_fetch_outside {s : State} (h : s.halt = false) (hp : Config.memSize ≤ s.pc.toNat + 1) :
    stepResult s = .fault 4 (BitVec.ofNat 16 (max s.pc.toNat Config.memSize)) ∧
      ∃ t, step s = .next t ∧ FaultTaken 4 (BitVec.ofNat 16 (max s.pc.toNat Config.memSize)) s t :=
  ⟨stepResult_of_fetch_error h (fetch_error s hp), _, step_fetch_fault s h hp, raise_faultTaken _ s⟩

/-- Settles O15: the fetch inside memory, and the two ranges of PC outside, where the lowest address above 4095 is 4096
or PC itself. -/
theorem fetchIsBigEndianAndBounded : Obligations.FetchIsBigEndianAndBounded := by
  refine ⟨fun s hp => ⟨_, fetch_ok s (Nat.lt_succ_of_le hp), wordOfBytes_toNat _ _⟩, fun s h hp => ?_, fun s h hp => ?_⟩
  · have hout := step_fetch_outside h (by simp [hp])
    rwa [show BitVec.ofNat 16 (max s.pc.toNat Config.memSize) = 0x1000 by rw [hp]; rfl] at hout
  · have hout := step_fetch_outside h (Nat.le_succ_of_le hp)
    rwa [Nat.max_eq_left hp, BitVec.ofNat_toNat, BitVec.setWidth_eq] at hout

/-! ### The timer transfers (R163 to R165) -/

/-- Settles O53: the words decode by `decode_encode`; each transfer is one write and the advance, and the tick counts
the written timer down. -/
theorem timerTransfersTickInTheSameStep : Obligations.TimerTransfersTickInTheSameStep := by
  refine ⟨fun x => decode_encode (i := .ldVxDt x) rfl, fun x => decode_encode (i := .ldDtVx x) rfl,
    fun x => decode_encode (i := .ldStVx x) rfl, fun x s => ?_, fun x s => ?_, fun x s => ?_⟩
  · have hregs : KeepsRegsBut [x] s (advance (setReg s x s.dt)) := fun y hy =>
      getReg_setReg_of_ne s x y _ (List.ne_of_not_mem_cons hy)
    exact ⟨_, rfl, getReg_setReg_same s x _, countDown_toNat s.dt, rfl, hregs,
      (setReg_keepsAllBut s x _).trans (advance_keepsAllBut _)⟩
  · exact ⟨_, rfl, rfl, countDown_toNat _, rfl, (setDelay_keepsAllBut s _).trans (advance_keepsAllBut _)⟩
  · have hbeep : (tick (advance (setSound s (getReg s x)))).beep = true ↔ s.beep = true ∨ (getReg s x).toNat = 1 := by
      simp [BitVec.toNat_eq]
    exact ⟨_, rfl, rfl, countDown_toNat _, hbeep, rfl, (setSound_keepsAllBut s _).trans (advance_keepsAllBut _)⟩

end Sys2Proof.Machine
end

section
/-! SUPPORT. The draw reaches RND alone, and the proofs of the statements about it (40_step_cycle.md R88, 42_alu.md
R131). -/

namespace Sys2Proof.Machine

/-- The state with another counter of draws. -/
def withDraws (n : Nat) (s : State) : State := { s with draws := n }

/-! ### The checked instructions take no account of the counter -/

theorem returnFromCall_withDraws (n : Nat) (s : State) :
    returnFromCall (withDraws n s) = (returnFromCall s).map (withDraws n) := by
  obtain h | ⟨k, hk, h⟩ := sp_cases s
  · rw [returnFromCall_empty s h, returnFromCall_empty (withDraws n s) h]
    rfl
  · rw [returnFromCall_ok s k hk h, returnFromCall_ok (withDraws n s) k hk h]
    rfl

theorem callAddress_withDraws (n : Nat) (nnn : Addr) (s : State) :
    callAddress nnn (withDraws n s) = (callAddress nnn s).map (withDraws n) := by
  obtain h | h : s.sp.val < 16 ∨ s.sp.val = 16 := by omega
  · rw [callAddress_ok nnn s h, callAddress_ok nnn (withDraws n s) h]
    rfl
  · rw [callAddress_full nnn s h, callAddress_full nnn (withDraws n s) h]
    rfl

theorem skipOnKey_withDraws (n : Nat) (x : Nibble) (wanted : Bool) (s : State) :
    skipOnKey x wanted (withDraws n s) = (skipOnKey x wanted s).map (withDraws n) := by
  have hkey : keyOperand (getReg (withDraws n s) x) = keyOperand (getReg s x) := rfl
  unfold skipOnKey
  rw [hkey]
  cases keyOperand (getReg s x) <;> rfl

theorem storeAtIndex_withDraws (n : Nat) (bytes : List Byte) (k : Nat) (s : State) :
    storeAtIndex bytes k (withDraws n s) = (storeAtIndex bytes k s).map (withDraws n) := by
  have hmem : writeChecked (withDraws n s).mem (indexAddress (withDraws n s) 0) bytes =
    writeChecked s.mem (indexAddress s 0) bytes := rfl
  unfold storeAtIndex
  rw [hmem]
  cases writeChecked s.mem (indexAddress s 0) bytes <;> rfl

theorem loadAtIndex_withDraws (n count : Nat) (s : State) :
    loadAtIndex count (withDraws n s) = (loadAtIndex count s).map (withDraws n) := by
  have hmem : readChecked (withDraws n s).mem (indexAddress (withDraws n s) 0) count =
    readChecked s.mem (indexAddress s 0) count := rfl
  unfold loadAtIndex
  rw [hmem]
  cases readChecked s.mem (indexAddress s 0) count <;> rfl

theorem drawChecked_withDraws (n x0 y0 count : Nat) (s : State) :
    (spriteChecked (withDraws n s) x0 y0 count).map (fun pixels => drawPixels pixels (withDraws n s)) =
      ((spriteChecked s x0 y0 count).map (fun pixels => drawPixels pixels s)).map (withDraws n) := by
  have hsprite : spriteChecked (withDraws n s) x0 y0 count = spriteChecked s x0 y0 count := rfl
  rw [hsprite]
  cases spriteChecked s x0 y0 count <;> rfl

/-- A checked instruction that takes no account of the counter, its fault included. -/
theorem orRaise_withDraws {n : Nat} {s t : State} {r r' : Except Fault State} (hr : r' = r.map (withDraws n))
    (h : orRaise s r = .next t) : orRaise (withDraws n s) r' = .next (withDraws n t) := by
  subst hr
  cases r <;> cases h <;> rfl

/-! ### Every instruction but RND -/

theorem exec_withDraws {i : Instr} {s t : State} (n : Nat) (hi : ∀ x nn, i ≠ .rnd x nn) (h : exec i s = .next t) :
    exec i (withDraws n s) = .next (withDraws n t) := by
  cases i with
  | rnd x nn => exact absurd rfl (hi x nn)
  | ret => exact orRaise_withDraws (returnFromCall_withDraws n s) h
  | call nnn => exact orRaise_withDraws (callAddress_withDraws n nnn s) h
  | skp x => exact orRaise_withDraws (skipOnKey_withDraws n x true s) h
  | sknp x => exact orRaise_withDraws (skipOnKey_withDraws n x false s) h
  | ldB | ldMemVx => exact orRaise_withDraws (storeAtIndex_withDraws n _ _ s) h
  | ldVxMem x => exact orRaise_withDraws (loadAtIndex_withDraws n _ s) h
  | drw x y k => exact orRaise_withDraws (drawChecked_withDraws n _ _ _ s) h
  | ldVxK x =>
    have hscan : scanKeys (withDraws n s) = scanKeys s := rfl
    simp only [exec, execLdVxK] at h ⊢
    rw [hscan]
    cases hk : scanKeys s <;> rw [hk] at h <;> cases h <;> rfl
  | _ =>
    obtain rfl := Host.Outcome.next.inj h
    rfl

/-- Settles O23: no instruction but RND reads the counter, so each commutes with a change of it. -/
theorem onlyRndSeesTheDraw : Obligations.OnlyRndSeesTheDraw := fun _ _ _ n hi h => exec_withDraws n hi h

/-! ### What moves the counter -/

/-- Every instruction but RND leaves the counter: its next state carries whatever counter it was given. -/
theorem exec_keeps_draws {i : Instr} {s t : State} (hi : ∀ x nn, i ≠ .rnd x nn) (h : exec i s = .next t) :
    t.draws = s.draws := by
  have hown : exec i s = .next (withDraws s.draws t) := exec_withDraws s.draws hi h
  have ht : t = withDraws s.draws t := Host.Outcome.next.inj (h.symm.trans hown)
  calc t.draws = (withDraws s.draws t).draws := congrArg State.draws ht
    _ = s.draws := rfl

@[simp] theorem afterExecute_draws (t : State) : (afterExecute t).draws = t.draws := by
  unfold afterExecute
  split <;> rfl

/-- A Step leaves the counter, or fetched RND and adds one. -/
theorem step_draws {s t : State} (h : step s = .next t) :
    t.draws = s.draws ∨
      (t.draws = s.draws + 1 ∧ ∃ op x nn, fetch s = .ok op ∧ decode op = .ok (.rnd x nn)) := by
  obtain ⟨-, hs⟩ | ⟨-, f, -, hs⟩ | ⟨-, op, hf, hs⟩ := step_cases s
  · cases hs.symm.trans h
    exact .inl rfl
  · cases hs.symm.trans h
    exact .inl rfl
  · obtain ⟨e, -, hw⟩ | ⟨i, u, hd, hx, hw⟩ := runWord_cases op s
    · cases (hs.trans hw).symm.trans h
      exact .inl (by simp)
    · cases (hs.trans hw).symm.trans h
      rw [afterExecute_draws]
      by_cases hi : ∃ x nn, i = .rnd x nn
      · obtain ⟨x, nn, rfl⟩ := hi
        cases hx
        exact .inr ⟨rfl, op, x, nn, hf, hd⟩
      · exact .inl (exec_keeps_draws (fun x nn e => hi ⟨x, nn, e⟩) hx)

@[simp] theorem hostLoad_draws (bytes : List Byte) (s : State) : (hostLoad bytes s).draws = s.draws := by
  unfold hostLoad
  split <;> rfl

/-- Settles O54: of the operations only a Step can move the counter, and a fetched RND masks the draw at it. -/
theorem noDrawIsReadTwice : Obligations.NoDrawIsReadTwice := by
  refine ⟨fun o s t hp => ?_, fun s op x nn h hf hd => ?_⟩
  · cases o with
    | step => exact (step_draws hp).imp_right fun ⟨hn, hfetched⟩ => ⟨hn, rfl, hfetched⟩
    | load bytes => cases hp; exact .inl (hostLoad_draws bytes s)
    | reset | setKeys | clearRedraw | clearBeep => cases hp; exact .inl rfl
  · have hreg : getReg (regResult x (drawnByte s &&& nn) s) x = drawnByte s &&& nn := getReg_setReg_same s x _
    have hs : step s = .next (tick (consumeDraw (regResult x (drawnByte s &&& nn) s))) :=
      (step_of_decode h hf hd rfl).trans (congrArg _ (afterExecute_of_running h))
    refine ⟨_, hs, rfl, fun k => ?_⟩
    rw [getReg_tick, getReg_consumeDraw, hreg, BitVec.getLsbD_and, drawnByte]

end Sys2Proof.Machine
end

section
/-! SUPPORT. PC after every instruction, and the proof of the statement about it (40_step_cycle.md R84). -/

namespace Sys2Proof.Machine

/-- The target of a jump as R84 writes it. -/
theorem addrOperand_eq_ofNat (nnn : Addr) : addrOperand nnn = BitVec.ofNat 16 nnn.toNat :=
  (BitVec.ofNat_toNat 16 nnn).symm

theorem returnFromCall_pc {s t : State} (h : returnFromCall s = .ok t) : t.pc = pcAfter .ret s := by
  obtain h0 | ⟨n, hn, hsp⟩ := sp_cases s
  · cases (returnFromCall_empty s h0).symm.trans h
  · cases (returnFromCall_ok s n hn hsp).symm.trans h
    simp [pcAfter, hsp]

theorem callAddress_pc {nnn : Addr} {s t : State} (h : callAddress nnn s = .ok t) : t.pc = pcAfter (.call nnn) s := by
  obtain hs | hs : s.sp.val < 16 ∨ s.sp.val = 16 := by omega
  · cases (callAddress_ok nnn s hs).symm.trans h
    exact addrOperand_eq_ofNat nnn
  · cases (callAddress_full nnn s hs).symm.trans h

theorem skipOnKey_pc {x : Nibble} {wanted : Bool} {s t : State} (h : skipOnKey x wanted s = .ok t) :
    t.pc = if keyDown s (getReg s x).toNat = wanted then s.pc + 4 else s.pc + 2 := by
  obtain hk | hk := Nat.lt_or_ge (getReg s x).toNat 16
  · rw [skipOnKey, keyOperand_ok _ hk] at h
    obtain rfl := Except.ok.inj h
    simp
  · rw [skipOnKey, keyOperand_error _ hk] at h
    cases h

theorem storeAtIndex_pc {bytes : List Byte} {k : Nat} {s t : State} (h : storeAtIndex bytes k s = .ok t) :
    t.pc = s.pc + 2 := by
  obtain ⟨m, -, e⟩ | e := storeAtIndex_cases bytes k s <;> cases e.symm.trans h
  rfl

theorem loadAtIndex_pc {count : Nat} {s t : State} (h : loadAtIndex count s = .ok t) : t.pc = s.pc + 2 := by
  obtain e | e := loadAtIndex_cases count s <;> cases e.symm.trans h
  rfl

/-- The key scan finds nothing exactly when no key is down (R162). -/
theorem scanKeys_eq_none_iff (s : State) : scanKeys s = none ↔ s.keys = 0 := by
  constructor
  · intro h
    have hup := scan_spec s Config.keyCount
    rw [scanKeys] at h
    rw [h] at hup
    exact BitVec.eq_of_getLsbD_eq fun j hj => (hup j hj).trans BitVec.getLsbD_zero.symm
  · intro h
    exact scanKeys_none s fun j _ => by simp [keyDown, h]

theorem execLdVxK_pc {x : Nibble} {s t : State} (h : exec (.ldVxK x) s = .next t) : t.pc = pcAfter (.ldVxK x) s := by
  simp only [exec, execLdVxK] at h
  cases hk : scanKeys s with
  | none =>
    rw [hk] at h
    cases h
    exact (if_pos ((scanKeys_eq_none_iff s).mp hk)).symm
  | some k =>
    have hkeys : s.keys ≠ 0 := fun e => by simp [(scanKeys_eq_none_iff s).mpr e] at hk
    rw [hk] at h
    cases h
    exact (if_neg hkeys).symm

/-- PC after an instruction that leaves the machine running, by the rows of R84. -/
theorem exec_pc {i : Instr} {s t : State} (h : exec i s = .next t) (ht : t.halt = false) : t.pc = pcAfter i s := by
  cases i with
  | ret => exact returnFromCall_pc (orRaise_ok_of_running h ht)
  | call nnn => exact callAddress_pc (orRaise_ok_of_running h ht)
  | jp nnn =>
    obtain rfl := Host.Outcome.next.inj h
    exact addrOperand_eq_ofNat nnn
  | jpV0 nnn =>
    obtain rfl := Host.Outcome.next.inj h
    simp [pcAfter, addrOperand, byteOperand, BitVec.ofNat_add]
  | seImm | sneImm | seReg | sneReg =>
    obtain rfl := Host.Outcome.next.inj h
    simp [pcAfter]
  | skp x => exact skipOnKey_pc (orRaise_ok_of_running h ht)
  | sknp x =>
    rw [skipOnKey_pc (orRaise_ok_of_running h ht)]
    cases hk : keyDown s (getReg s x).toNat <;> simp [pcAfter, hk]
  | ldVxK x => exact execLdVxK_pc h
  | ldB | ldMemVx => exact storeAtIndex_pc (orRaise_ok_of_running h ht)
  | ldVxMem x => exact loadAtIndex_pc (orRaise_ok_of_running h ht)
  | drw x y n =>
    obtain ⟨pixels, rfl⟩ | ⟨f, rfl⟩ := execDrw_next_cases h
    · rfl
    · cases ht
  | _ =>
    obtain rfl := Host.Outcome.next.inj h
    rfl

/-- Settles O24: a fault leaves PC because only `raise` halts a running machine; the other states follow the table. -/
theorem pcFollowsTheTable : Obligations.PcFollowsTheTable := by
  intro i s t h hx
  cases ht : t.halt with
  | true =>
    obtain ⟨f, rfl⟩ := exec_eq_raise_of_halt h hx ht
    rfl
  | false => exact exec_pc hx ht

end Sys2Proof.Machine
end

section
/-! SUPPORT. What the write of PC keeps and the number a jump's address field stands for, and the proof of the statement
about JP (41_control_flow.md R102). -/

namespace Sys2Proof.Machine

theorem setPc_keepsAllBut (s : State) (w : Word) : KeepsAllBut [.pc] s (setPc s w) := by
  intro e he
  cases e with
  | pc => simp at he
  | mem | v => exact fun _ => rfl
  | _ => rfl

/-- Zero extension keeps the number of an address field, so that no target is masked or aligned. -/
@[simp] theorem addrOperand_toNat (nnn : Addr) : (addrOperand nnn).toNat = nnn.toNat :=
  BitVec.toNat_setWidth_of_le (by decide)

/-- Settles O31: the word decodes by `decode_encode`, and the one write of JP is PC at its address field. -/
theorem jumpReplacesPc : Obligations.JumpReplacesPc :=
  ⟨fun nnn => decode_encode (i := .jp nnn) rfl, fun nnn s =>
    ⟨setPc s (addrOperand nnn), rfl, addrOperand_toNat nnn, setPc_keepsAllBut s _⟩⟩

end Sys2Proof.Machine
end

section
/-! SUPPORT. What the result-and-flag writes leave and keep, the flags as numbers, and the proofs of the statements about
the arithmetic, the shifts and RND (42_alu.md R126 to R133). -/

namespace Sys2Proof.Machine

/-! ### The two register-writing operations: value, register frame, element frame -/

theorem getReg_flaggedResult_same (s : State) {x : Nibble} (result flag : Byte) (hx : x ≠ vf) :
    getReg (flaggedResult x result flag s) x = result := by
  rw [flaggedResult, getReg_advance, getReg_setResultThenFlag, if_neg hx, if_pos rfl]

theorem flaggedResult_keepsRegsBut (s : State) (x : Nibble) (result flag : Byte) :
    KeepsRegsBut [x, vf] s (flaggedResult x result flag s) := fun y hy => by
  obtain ⟨hx, hvf⟩ : y ≠ x ∧ y ≠ vf := by simpa using hy
  exact getReg_flaggedResult_of_ne s result flag hx hvf

theorem flaggedResult_keepsAllBut (s : State) (x : Nibble) (result flag : Byte) :
    KeepsAllBut [.v, .pc] s (flaggedResult x result flag s) := fun e he =>
  ((setReg_keepsAllBut s x result).trans ((setReg_keepsAllBut _ vf flag).trans (advance_keepsAllBut _))) e
    (by simpa using he)

/-- What the five arithmetic instructions share (R132): once the result and the flag are known as numbers, with X = F the
flag remains. -/
theorem exists_next_of_flaggedResult {i : Instr} {s : State} {x : Nibble} {result flag : Byte} {r f : Nat}
    (hexec : exec i s = .next (flaggedResult x result flag s)) (hresult : result.toNat = r) (hflag : flag.toNat = f) :
    ∃ t, exec i s = .next t ∧ (x ≠ vf → (getReg t x).toNat = r) ∧ (getReg t vf).toNat = f ∧ t.pc = s.pc + 2 ∧
      KeepsRegsBut [x, vf] s t ∧ KeepsAllBut [.v, .pc] s t := by
  refine ⟨_, hexec, fun hx => ?_, ?_, rfl, flaggedResult_keepsRegsBut s x result flag,
    flaggedResult_keepsAllBut s x result flag⟩
  · rw [getReg_flaggedResult_same s result flag hx, hresult]
  · rw [getReg_flaggedResult_vf, hflag]

/-- The converse reading: V[X] and VF of the next state are the result and the flag, when X is not F. -/
theorem regs_of_exec_flaggedResult {i : Instr} {s t : State} {x : Nibble} {result flag : Byte} (hx : x ≠ vf)
    (hexec : exec i s = .next (flaggedResult x result flag s)) (h : exec i s = .next t) :
    getReg t x = result ∧ getReg t vf = flag := by
  obtain rfl := Host.Outcome.next.inj (hexec.symm.trans h)
  exact ⟨getReg_flaggedResult_same s result flag hx, getReg_flaggedResult_vf s x result flag⟩

/-! ### The flags and results as numbers -/

theorem flagByte_toNat (b : Bool) : (flagByte b).toNat = b.toNat := by
  cases b <;> rfl

theorem carryFlag_toNat (a b : Byte) : (carryFlag a b).toNat = if b.toNat > 255 - a.toNat then 1 else 0 := by
  rw [carryFlag, flagByte_toNat]
  exact Bool.cond_decide ..

theorem notBorrowFlag_toNat (a b : Byte) : (notBorrowFlag a b).toNat = if a.toNat ≥ b.toNat then 1 else 0 := by
  rw [notBorrowFlag, flagByte_toNat]
  exact Bool.cond_decide ..

theorem shrFlag_toNat (a : Byte) : (shrFlag a).toNat = a.toNat % 2 := by
  rw [shrFlag, flagByte_toNat, BitVec.getLsbD, Nat.toNat_testBit, pow_zero, Nat.div_one]

theorem shlFlag_toNat (a : Byte) : (shlFlag a).toNat = a.toNat / 128 := by
  have ha : a.toNat < 256 := a.isLt
  rw [shlFlag, flagByte_toNat, BitVec.getLsbD, Nat.toNat_testBit]
  omega

theorem byte_sub_toNat (a b : Byte) : (a - b).toNat = (a.toNat + 256 - b.toNat) % 256 := by
  have hb : b.toNat < 256 := b.isLt
  rw [BitVec.toNat_sub]
  omega

theorem byte_shiftRight_one_toNat (a : Byte) : (a >>> 1).toNat = a.toNat / 2 := by
  rw [BitVec.toNat_ushiftRight, Nat.shiftRight_eq_div_pow, pow_one]

theorem byte_shiftLeft_one_toNat (a : Byte) : (a <<< 1).toNat = a.toNat * 2 % 256 := by
  rw [BitVec.toNat_shiftLeft, Nat.shiftLeft_eq, pow_one]

/-! ### ADD, SUB, SUBN, SHR, SHL (R126 to R130) -/

/-- Settles O38: the sum of bytes is the sum modulo 256, and the carry flag is R126's comparison. -/
theorem addRegistersWithCarry : Obligations.AddRegistersWithCarry :=
  ⟨fun x y => decode_encode (i := .addReg x y) rfl, fun _ _ _ =>
    exists_next_of_flaggedResult rfl (BitVec.toNat_add ..) (carryFlag_toNat ..)⟩

/-- Settles O39: the same two facts about the difference serve both, SUBN's with the operands exchanged. -/
theorem subtractWithNotBorrow : Obligations.SubtractWithNotBorrow :=
  ⟨fun x y => decode_encode (i := .sub x y) rfl, fun x y => decode_encode (i := .subn x y) rfl,
    fun _ _ _ => exists_next_of_flaggedResult rfl (byte_sub_toNat ..) (notBorrowFlag_toNat ..),
    fun _ _ _ => exists_next_of_flaggedResult rfl (byte_sub_toNat ..) (notBorrowFlag_toNat ..)⟩

/-- Settles O40: halving drops bit 0, doubling modulo 256 drops bit 7, and neither reads V[Y]. -/
theorem shiftsMoveOneBitOut : Obligations.ShiftsMoveOneBitOut :=
  ⟨fun x y => decode_encode (i := .shr x y) rfl, fun x y => decode_encode (i := .shl x y) rfl,
    fun _ _ _ => exists_next_of_flaggedResult rfl (byte_shiftRight_one_toNat _) (shrFlag_toNat _),
    fun _ _ _ => exists_next_of_flaggedResult rfl (byte_shiftLeft_one_toNat _) (shlFlag_toNat _)⟩

/-! ### Result and flag together (R133) -/

theorem carryFlag_add_exact (a b : Byte) : 256 * (carryFlag a b).toNat + (a + b).toNat = a.toNat + b.toNat := by
  have ha : a.toNat < 256 := a.isLt
  have hb : b.toNat < 256 := b.isLt
  rw [carryFlag_toNat, BitVec.toNat_add]
  split <;> omega

theorem notBorrowFlag_sub_exact (a b : Byte) :
    a.toNat + 256 * (1 - (notBorrowFlag a b).toNat) = b.toNat + (a - b).toNat := by
  have ha : a.toNat < 256 := a.isLt
  have hb : b.toNat < 256 := b.isLt
  rw [notBorrowFlag_toNat, byte_sub_toNat]
  split <;> omega

theorem shrFlag_shiftRight_exact (a : Byte) : 2 * (a >>> 1).toNat + (shrFlag a).toNat = a.toNat := by
  rw [shrFlag_toNat, byte_shiftRight_one_toNat, Nat.div_add_mod]

theorem shlFlag_shiftLeft_exact (a : Byte) : 256 * (shlFlag a).toNat + (a <<< 1).toNat = 2 * a.toNat := by
  rw [shlFlag_toNat, byte_shiftLeft_one_toNat]
  omega

/-- Settles O42: V[X] and VF are the result and the flag, and each law is one of bytes. -/
theorem resultAndFlagKeepTheExactValue : Obligations.ResultAndFlagKeepTheExactValue := by
  intro x y s t hx
  refine ⟨fun h => ?_, fun h => ?_, fun h => ?_, fun h => ?_, fun h => ?_⟩ <;>
    obtain ⟨hresult, hflag⟩ := regs_of_exec_flaggedResult hx rfl h <;> rw [hresult, hflag]
  · exact carryFlag_add_exact _ _
  · exact notBorrowFlag_sub_exact _ _
  · exact notBorrowFlag_sub_exact _ _
  · exact shrFlag_shiftRight_exact _
  · exact shlFlag_shiftLeft_exact _

/-! ### RND (R131) -/

theorem getReg_regResult_same (s : State) (x : Nibble) (result : Byte) : getReg (regResult x result s) x = result :=
  getReg_setReg_same s x result

theorem regResult_keepsRegsBut (s : State) (x : Nibble) (result : Byte) :
    KeepsRegsBut [x] s (regResult x result s) := fun _ hy =>
  getReg_regResult_of_ne s result (List.ne_of_not_mem_cons hy)

theorem regResult_keepsAllBut (s : State) (x : Nibble) (result : Byte) :
    KeepsAllBut [.v, .pc] s (regResult x result s) := (setReg_keepsAllBut s x result).trans (advance_keepsAllBut _)

theorem consumeDraw_keepsAllBut (s : State) : KeepsAllBut [.draws] s (consumeDraw s) := by
  intro e he
  cases e with
  | draws => simp at he
  | mem | v => exact fun _ => rfl
  | _ => rfl

/-- Settles O41: RND is one register result, the draw under the mask, and one draw consumed. -/
theorem rndMasksTheDraw : Obligations.RndMasksTheDraw := by
  refine ⟨fun x nn => decode_encode (i := .rnd x nn) rfl, fun x nn s => ?_⟩
  have hbits (k : Nat) : (getReg (consumeDraw (regResult x (drawnByte s &&& nn) s)) x).getLsbD k =
      ((drawnByte s).getLsbD k && nn.getLsbD k) := by
    rw [getReg_consumeDraw, getReg_regResult_same, BitVec.getLsbD_and]
  exact ⟨_, rfl, hbits, rfl, rfl, regResult_keepsRegsBut s x _,
    (regResult_keepsAllBut s x _).trans (consumeDraw_keepsAllBut _)⟩

end Sys2Proof.Machine
end

section
/-! SUPPORT. The run of bytes stored at I and the run loaded from I, inside memory and past its end, and the proofs of
the statements about LD B, LD [I], Vx and LD Vx, [I] (43_index_memory.md R143 to R145). -/

namespace Sys2Proof.Machine

/-! ### Frames of the writes -/

theorem setMem_keepsAllBut (s : State) (m : Memory) : KeepsAllBut [.mem] s (setMem s m) := by
  intro e he
  cases e with
  | mem => simp at he
  | v => exact fun _ => rfl
  | _ => rfl

theorem setIndex_keepsAllBut (s : State) (w : Word) : KeepsAllBut [.i] s (setIndex s w) := by
  intro e he
  cases e with
  | i => simp at he
  | mem | v => exact fun _ => rfl
  | _ => rfl

theorem setRegs_keepsAllBut (s : State) (v : Regs) : KeepsAllBut [.v] s (setRegs s v) := by
  intro e he
  cases e with
  | v => simp at he
  | mem => exact fun _ => rfl
  | _ => rfl

/-! ### The advance of I and the fault, which the block transfers share -/

/-- The advance of a range whose last address is in memory does not wrap (R144). -/
theorem advancedIndex_toNat {x : Nibble} {s : State} (h : s.i.toNat + x.toNat ≤ 4095) :
    (BitVec.ofNat 16 (s.i.toNat + rangeLength x)).toNat = s.i.toNat + x.toNat + 1 :=
  Nat.mod_eq_of_lt (show s.i.toNat + x.toNat + 1 < 65536 by omega)

/-- An instruction whose run at I leaves memory takes the precise fault of its lowest address above 4095 (R86, R174). -/
theorem exists_faultTaken_of_memoryError {i : Instr} {s : State} {r : Except Fault State}
    (hexec : exec i s = orRaise s r) (hr : r = .error (.outOfBoundsMemoryAccess (max s.i.toNat Config.memSize))) :
    ∃ t, exec i s = .next t ∧ FaultTaken 4 (BitVec.ofNat 16 (max s.i.toNat 4096)) s t :=
  ⟨_, hexec.trans (congrArg (orRaise s) hr), raise_faultTaken _ s⟩

/-! ### The store of a run at I -/

theorem storeAtIndex_error (bytes : List Byte) (k : Nat) (s : State) (h0 : bytes.length ≠ 0)
    (h : Config.memSize < s.i.toNat + bytes.length) :
    storeAtIndex bytes k s = .error (.outOfBoundsMemoryAccess (max s.i.toNat Config.memSize)) := by
  simp only [storeAtIndex, indexAddress, Nat.add_zero, writeChecked_error _ _ _ h0 h]

theorem exists_faultTaken_of_store {i : Instr} {s : State} {bytes : List Byte} {k : Nat}
    (hexec : exec i s = orRaise s (storeAtIndex bytes k s)) (h0 : bytes.length ≠ 0)
    (h : Config.memSize < s.i.toNat + bytes.length) :
    ∃ t, exec i s = .next t ∧ FaultTaken 4 (BitVec.ofNat 16 (max s.i.toNat 4096)) s t :=
  exists_faultTaken_of_memoryError hexec (storeAtIndex_error bytes k s h0 h)

/-! ### LD B (R143) -/

/-- The next state of `LD B, Vx` when its three bytes lie inside memory (R143). -/
def bcdStored (x : Nibble) (s : State) : State :=
  advance (setMem s (Memory.writeRun s.mem s.i.toNat (bcdDigits (getReg s x))))

theorem exec_ldB_inside {x : Nibble} {s : State} (h : s.i.toNat + 2 ≤ 4095) :
    exec (.ldB x) s = .next (bcdStored x s) := by
  have hrun : s.i.toNat + (bcdDigits (getReg s x)).length ≤ Config.memSize := Nat.succ_le_succ h
  have hindex : BitVec.ofNat 16 (s.i.toNat + 0) = s.i := by simp
  rw [exec, execLdB, storeAtIndex_ok _ _ _ hrun, hindex]
  rfl

/-- The three stored bytes as numbers; the modulo sequence of the ones digit is `mod 10` (R143). -/
theorem bcdDigits_map_toNat (b : Byte) :
    (bcdDigits b).map BitVec.toNat = [b.toNat / 100, b.toNat / 10 % 10, b.toNat % 10] := by
  have hb : b.toNat < 256 := b.isLt
  simp only [bcdDigits, List.map_cons, List.map_nil, BitVec.toNat_ofNat, List.cons.injEq, and_true]
  omega

/-- Digit k of LD B stands at I + k. -/
theorem read_bcdStored {x : Nibble} {s : State} {k : Nat} (hm : Memory.wf s.mem) (h : s.i.toNat + 2 ≤ 4095)
    (hk : k < 3) :
    (Memory.read (bcdStored x s).mem (s.i.toNat + k)).toNat =
      [(getReg s x).toNat / 100, (getReg s x).toNat / 10 % 10, (getReg s x).toNat % 10][k] := by
  calc (Memory.read (bcdStored x s).mem (s.i.toNat + k)).toNat
      = (bcdDigits (getReg s x))[k].toNat :=
        congrArg BitVec.toNat (read_writeRun_inside _ _ _ _ hm (Nat.succ_le_succ h) hk)
    _ = ((bcdDigits (getReg s x)).map BitVec.toNat)[k] := (List.getElem_map _).symm
    _ = _ := by simp only [bcdDigits_map_toNat]

theorem bcdStored_keepsBytesOutside (x : Nibble) (s : State) :
    KeepsBytesOutside s.i.toNat 3 s (bcdStored x s) := fun a ha => read_writeRun_outside _ _ a _ ha

theorem bcdStored_keepsAllBut (x : Nibble) (s : State) : KeepsAllBut [.mem, .pc] s (bcdStored x s) :=
  (setMem_keepsAllBut s _).trans (advance_keepsAllBut _)

/-- Settles O44: each digit is the byte of the run at its offset, and three bytes leave memory exactly when I + 2 is
above 4095. -/
theorem bcdStoresThreeDigits : Obligations.BcdStoresThreeDigits := by
  refine ⟨fun x => decode_encode (i := .ldB x) rfl, fun x s hm hi => ?_, fun x s hi => ?_⟩
  · exact ⟨_, exec_ldB_inside hi, read_bcdStored (k := 0) hm hi (by decide), read_bcdStored (k := 1) hm hi (by decide),
      read_bcdStored (k := 2) hm hi (by decide), bcdStored_keepsBytesOutside x s, rfl, bcdStored_keepsAllBut x s⟩
  · exact exists_faultTaken_of_store rfl (by simp [bcdDigits]) (Nat.succ_lt_succ hi)

/-! ### LD [I], Vx (R144) -/

theorem blockStored_keepsBytesOutside (x : Nibble) (s : State) :
    KeepsBytesOutside s.i.toNat (x.toNat + 1) s (blockStored x s) := fun a ha =>
  read_writeRun_outside _ _ a _ (by rwa [storedRegs_length])

theorem blockStored_keepsAllBut (x : Nibble) (s : State) : KeepsAllBut [.mem, .i, .pc] s (blockStored x s) :=
  ((setMem_keepsAllBut s _).trans (setIndex_keepsAllBut _ _)).trans (advance_keepsAllBut _)

/-- Settles O45: `read_blockStored` gives each stored byte, and X + 1 bytes leave memory exactly when I + X is above
4095. -/
theorem blockStoreCopiesRegisters : Obligations.BlockStoreCopiesRegisters := by
  refine ⟨fun x => decode_encode (i := .ldMemVx x) rfl, fun x s hm hi => ?_, fun x s hi => ?_⟩
  · have hin : s.i.toNat + x.toNat < Config.memSize := Nat.lt_succ_of_le hi
    exact ⟨_, exec_ldMemVx_inside hin, fun _ hk => read_blockStored hm hin hk, blockStored_keepsBytesOutside x s,
      advancedIndex_toNat hi, rfl, blockStored_keepsAllBut x s⟩
  · have hrun : Config.memSize < s.i.toNat + (storedRegs s.v x).length := by
      rw [storedRegs_length]
      exact Nat.succ_lt_succ hi
    exact exists_faultTaken_of_store rfl (by simp) hrun

/-! ### LD Vx, [I] (R145) -/

theorem loadAtIndex_error (count : Nat) (s : State) (h0 : count ≠ 0) (h : Config.memSize < s.i.toNat + count) :
    loadAtIndex count s = .error (.outOfBoundsMemoryAccess (max s.i.toNat Config.memSize)) := by
  simp only [loadAtIndex, indexAddress, Nat.add_zero, readChecked_error _ _ _ h0 h]

/-- The next state of `LD Vx, [I]` when its run lies inside memory (R145). -/
def blockLoaded (x : Nibble) (s : State) : State :=
  advance (setIndex (setRegs s (loadRegs s.v 0 (Memory.readRun s.mem s.i.toNat (rangeLength x))))
    (BitVec.ofNat 16 (s.i.toNat + rangeLength x)))

/-- A block load whose last address is in memory passes its check (R41, R86). -/
theorem exec_ldVxMem_inside {x : Nibble} {s : State} (h : s.i.toNat + x.toNat ≤ 4095) :
    exec (.ldVxMem x) s = .next (blockLoaded x s) := by
  have hrun : s.i.toNat + rangeLength x ≤ Config.memSize := Nat.succ_le_succ h
  simp only [exec, execLdVxMem, loadAtIndex, indexAddress, Nat.add_zero, readChecked_ok _ _ _ (Or.inr hrun), orRaise,
    blockLoaded]

/-- The block load puts the byte at I + k into V[k], for k up to X, and keeps the registers above X (R145). -/
theorem getReg_blockLoaded (x k : Nibble) (s : State) :
    getReg (blockLoaded x s) k =
      if k.toNat ≤ x.toNat then Memory.read s.mem (s.i.toNat + k.toNat) else getReg s k := by
  rw [blockLoaded, getReg_advance, getReg_setIndex, getReg_loadRegs]
  simp only [readRun_length, readRun_getElem, rangeLength, Nat.lt_succ_iff, dite_eq_ite]

theorem blockLoaded_keepsAllBut (x : Nibble) (s : State) : KeepsAllBut [.v, .i, .pc] s (blockLoaded x s) :=
  ((setRegs_keepsAllBut s _).trans (setIndex_keepsAllBut _ _)).trans (advance_keepsAllBut _)

/-- Settles O46: `getReg_blockLoaded` gives every register, and X + 1 bytes leave memory exactly when I + X is above
4095. -/
theorem blockLoadCopiesMemory : Obligations.BlockLoadCopiesMemory := by
  refine ⟨fun x => decode_encode (i := .ldVxMem x) rfl, fun x s hi => ?_, fun x s hi => ?_⟩
  · exact ⟨_, exec_ldVxMem_inside hi, fun k => getReg_blockLoaded x k s, advancedIndex_toNat hi, rfl,
      blockLoaded_keepsAllBut x s⟩
  · exact exists_faultTaken_of_memoryError rfl (loadAtIndex_error _ s (Nat.succ_ne_zero _) (Nat.succ_lt_succ hi))

/-- Settles O47: the load reads at I + k the byte that the store put there, V[k]; both advance the same I. -/
theorem blockLoadUndoesBlockStore : Obligations.BlockLoadUndoesBlockStore := by
  intro x s v hm hi
  have hin : s.i.toNat + x.toNat < Config.memSize := Nat.lt_succ_of_le hi
  refine ⟨_, _, exec_ldMemVx_inside hin, exec_ldVxMem_inside hi, fun k hk => ?_, rfl⟩
  rw [getReg_blockLoaded, if_pos hk]
  exact read_blockStored hm hin hk

end Sys2Proof.Machine
end

section
/-! SUPPORT. The pixels of a sprite in drawing order, the state a draw that fits leaves, and the proofs of the statements
about CLS and DRW (44_display.md R150 to R152). -/

namespace Sys2Proof.Machine

/-! ### CLS (R151) -/

theorem showDisplay_keepsAllBut (s : State) (d : Display) : KeepsAllBut [.disp, .redraw] s (showDisplay s d) := by
  intro e he
  cases e with
  | disp | redraw => simp at he
  | mem | v => exact fun _ => rfl
  | _ => rfl

/-- Settles O48: CLS shows the display of no lit pixel and advances PC. -/
theorem clsBlanksTheDisplay : Obligations.ClsBlanksTheDisplay :=
  ⟨decode_encode (i := .cls) rfl, fun s =>
    ⟨advance (showDisplay s 0), rfl, fun _ _ => BitVec.getLsbD_zero, rfl, rfl,
      (showDisplay_keepsAllBut s 0).trans (advance_keepsAllBut _)⟩⟩

/-! ### The pixels of a sprite (R150) -/

/-- The pixels of the set bits of the sprite at I, in drawing order. -/
def drawnPixels (x y n : Nibble) (s : State) : List Nat :=
  spritePixels (getReg s x).toNat (getReg s y).toNat 0 (Memory.readRun s.mem s.i.toNat n.toNat)

theorem mem_drawnPixels {x y n : Nibble} {s : State} {k : Nat} :
    k ∈ drawnPixels x y n s ↔ ∃ r c, SpriteSet s n r c ∧ spriteIndex s x y r c = k := by
  simp only [drawnPixels, mem_spritePixels, readRun_length, readRun_getElem, spriteBit, Nat.zero_add]
  constructor
  · rintro ⟨r, c, hr, hc, hbit, rfl⟩
    exact ⟨r, c, ⟨hr, hc, hbit⟩, rfl⟩
  · rintro ⟨r, c, ⟨hr, hc, hbit⟩, rfl⟩
    exact ⟨r, c, hr, hc, hbit, rfl⟩

theorem drawnPixels_nodup (x y n : Nibble) (s : State) : (drawnPixels x y n s).Nodup := spritePixels_nodup ..

theorem drawnPixels_lt {x y n : Nibble} {s : State} (h : SpriteFits s x y n) : ∀ k ∈ drawnPixels x y n s, k < 2048 := by
  intro k hk
  obtain ⟨r, c, hset, rfl⟩ := mem_drawnPixels.mp hk
  exact Nat.lt_succ_of_le (h.2 r c hset)

/-- Drawing order is the order of the pixel indexes: a row spans 8 and the next one begins 64 later. -/
theorem spritePixels_pairwise_lt (x0 y0 r : Nat) (rows : List Byte) :
    (spritePixels x0 y0 r rows).Pairwise (· < ·) := by
  induction rows generalizing r with
  | nil => exact .nil
  | cons row rest ih =>
    refine List.pairwise_append.mpr ⟨?_, ih (r + 1), fun a ha b hb => ?_⟩
    · refine (List.pairwise_lt_range.filter _).map _ fun c c' hc => ?_
      simp only [pixelIndex]
      omega
    · obtain ⟨c, hc, -, rfl⟩ := (mem_rowPixels ..).mp ha
      obtain ⟨k, c', -, -, -, rfl⟩ := (mem_spritePixels ..).mp hb
      simp only [pixelIndex, Config.dispWidth]
      omega

/-- The first hit in a rising list is its least hit. -/
theorem find?_eq_some_of_pairwise_lt {l : List Nat} {p : Nat → Bool} {a : Nat} (hl : l.Pairwise (· < ·)) (ha : a ∈ l)
    (hp : p a = true) (hleast : ∀ b ∈ l, b < a → p b = false) : l.find? p = some a := by
  obtain ⟨before, after, rfl⟩ := List.append_of_mem ha
  refine List.find?_eq_some_iff_append.mpr ⟨hp, before, after, rfl, fun b hb => ?_⟩
  have hlt : b < a := (List.pairwise_append.mp hl).2.2 b hb a List.mem_cons_self
  simp [hleast b (List.mem_append_left _ hb) hlt]

/-- Of two set bits, the one with the smaller pixel index comes first in drawing order. -/
theorem drawn_before_of_spriteIndex_lt {x y n : Nibble} {s : State} {r c r' c' : Nat} (hset : SpriteSet s n r c)
    (h : spriteIndex s x y r' c' < spriteIndex s x y r c) : r' < r ∨ (r' = r ∧ c' < c) := by
  obtain ⟨-, hc, -⟩ := hset
  simp only [spriteIndex] at h
  omega

/-- The first pixel outside the display, when every set bit before it in drawing order has its pixel inside. -/
theorem drawnPixels_find?_outside {x y n : Nibble} {s : State} {r c : Nat} (hset : SpriteSet s n r c)
    (hout : 2047 < spriteIndex s x y r c)
    (hbefore : ∀ r' c', SpriteSet s n r' c' → r' < r ∨ (r' = r ∧ c' < c) → spriteIndex s x y r' c' ≤ 2047) :
    (drawnPixels x y n s).find? (fun k => decide (Config.dispSize ≤ k)) = some (spriteIndex s x y r c) := by
  refine find?_eq_some_of_pairwise_lt (spritePixels_pairwise_lt ..) (mem_drawnPixels.mpr ⟨r, c, hset, rfl⟩)
    (decide_eq_true hout) fun k hk hlt => ?_
  obtain ⟨r', c', hset', rfl⟩ := mem_drawnPixels.mp hk
  have hin := hbefore r' c' hset' (drawn_before_of_spriteIndex_lt hset hlt)
  exact decide_eq_false (Nat.not_le.mpr (Nat.lt_succ_of_le hin))

/-! ### A draw that fits (R152) -/

/-- The next state of `DRW Vx, Vy, nibble` when the sprite fits. -/
def drawn (x y n : Nibble) (s : State) : State := drawPixels (drawnPixels x y n s) s

theorem exec_drw_fits {x y n : Nibble} {s : State} (h : SpriteFits s x y n) :
    exec (.drw x y n) s = .next (drawn x y n s) := by
  have hchecked : spriteChecked s (getReg s x).toNat (getReg s y).toNat n.toNat = .ok (drawnPixels x y n s) :=
    spriteChecked_ok _ _ _ _ h.1 (drawnPixels_lt h)
  rw [exec, execDrw, hchecked]
  rfl

/-- The pixels of the sprite toggle and the others stay. -/
theorem pixel_drawn {x y n : Nibble} {s : State} {k : Nat} (h : SpriteFits s x y n) (hk : k < 2048) :
    pixel (drawn x y n s).disp k = (pixel s.disp k ^^ decide (k ∈ drawnPixels x y n s)) :=
  pixel_blit _ _ (drawnPixels_nodup x y n s) (drawnPixels_lt h) k hk

theorem pixel_drawn_of_spriteSet {x y n : Nibble} {s : State} {r c : Nat} (h : SpriteFits s x y n)
    (hset : SpriteSet s n r c) :
    pixel (drawn x y n s).disp (spriteIndex s x y r c) = !pixel s.disp (spriteIndex s x y r c) := by
  have hmem : spriteIndex s x y r c ∈ drawnPixels x y n s := mem_drawnPixels.mpr ⟨r, c, hset, rfl⟩
  rw [pixel_drawn h (drawnPixels_lt h _ hmem), decide_eq_true hmem, Bool.xor_true]

theorem pixel_drawn_ne_iff {x y n : Nibble} {s : State} {k : Nat} (h : SpriteFits s x y n) (hk : k < 2048) :
    pixel (drawn x y n s).disp k ≠ pixel s.disp k ↔ ∃ r c, SpriteSet s n r c ∧ spriteIndex s x y r c = k := by
  rw [pixel_drawn h hk, ← mem_drawnPixels]
  cases pixel s.disp k <;> simp

theorem flagByte_eq_one_iff (b : Bool) : flagByte b = 1 ↔ b = true := by
  cases b <;> decide

/-- VF is the collision: some pixel of the sprite was lit (C4, log 5). -/
theorem getReg_drawn_vf_eq_one_iff {x y n : Nibble} {s : State} (h : SpriteFits s x y n) :
    getReg (drawn x y n s) vf = 1 ↔ ∃ r c, SpriteSet s n r c ∧ pixel s.disp (spriteIndex s x y r c) = true := by
  rw [drawn, getReg_drawPixels_vf, flagByte_eq_one_iff, drwCollision,
    blit_collision _ _ (drawnPixels_nodup x y n s) (drawnPixels_lt h), List.any_eq_true]
  constructor
  · rintro ⟨k, hk, hlit⟩
    obtain ⟨r, c, hset, rfl⟩ := mem_drawnPixels.mp hk
    exact ⟨r, c, hset, hlit⟩
  · rintro ⟨r, c, hset, hlit⟩
    exact ⟨_, mem_drawnPixels.mpr ⟨r, c, hset, rfl⟩, hlit⟩

theorem getReg_drawn_vf_eq_one_or_zero (x y n : Nibble) (s : State) :
    getReg (drawn x y n s) vf = 1 ∨ getReg (drawn x y n s) vf = 0 := by
  rw [drawn, getReg_drawPixels_vf]
  exact (flagByte_eq_zero_or_one _).symm

theorem drawn_keepsRegsBut (x y n : Nibble) (s : State) : KeepsRegsBut [vf] s (drawn x y n s) := fun _ hr =>
  getReg_drawPixels_of_ne s _ (List.ne_of_not_mem_cons hr)

theorem drawn_keepsAllBut (x y n : Nibble) (s : State) :
    KeepsAllBut [.v, .disp, .redraw, .pc] s (drawn x y n s) :=
  ((setReg_keepsAllBut s vf _).trans (showDisplay_keepsAllBut _ _)).trans (advance_keepsAllBut _)

/-! ### The two faults of a draw (R152, R180) -/

theorem exists_faultTaken_of_drw_memory {x y n : Nibble} {s : State} (h0 : n.toNat ≠ 0)
    (h : Config.memSize < s.i.toNat + n.toNat) :
    ∃ t, exec (.drw x y n) s = .next t ∧ FaultTaken 4 (BitVec.ofNat 16 (max s.i.toNat 4096)) s t :=
  exists_faultTaken_of_memoryError rfl (by rw [spriteChecked_memory _ _ _ _ h0 h]; rfl)

theorem exists_faultTaken_of_drw_display {x y n : Nibble} {s : State} {k : Nat}
    (hmem : s.i.toNat + n.toNat ≤ Config.memSize)
    (hfirst : (drawnPixels x y n s).find? (fun k => decide (Config.dispSize ≤ k)) = some k) :
    ∃ t, exec (.drw x y n) s = .next t ∧ FaultTaken 5 (BitVec.ofNat 16 k) s t := by
  refine ⟨_, ?_, raise_faultTaken (.outOfBoundsDisplayAccess k) s⟩
  rw [exec, execDrw, spriteChecked_display _ _ _ _ _ (.inr hmem) hfirst]
  rfl

/-- Settles O49: the sprite's pixels are those of its set bits, each once, so the blit toggles each and VF is their
collision; the first pixel outside is the least one, because drawing order is the order of the indexes. -/
theorem drwDrawsByXorOrFaults : Obligations.DrwDrawsByXorOrFaults := by
  refine ⟨fun x y n => decode_encode (i := .drw x y n) rfl, fun x y n s hfits => ?_, fun x y n s h0 hi => ?_,
    fun x y n s r c hmem hset hout hbefore => ?_⟩
  · exact ⟨_, exec_drw_fits hfits, fun _ hk => pixel_drawn_ne_iff hfits hk, getReg_drawn_vf_eq_one_or_zero x y n s,
      getReg_drawn_vf_eq_one_iff hfits, rfl, rfl, drawn_keepsRegsBut x y n s, drawn_keepsAllBut x y n s⟩
  · exact exists_faultTaken_of_drw_memory (by omega) (show 4096 < _ by omega)
  · exact exists_faultTaken_of_drw_display hmem (drawnPixels_find?_outside hset hout hbefore)

/-! ### The same draw again -/

theorem spriteIndex_drawn {x y : Nibble} (n : Nibble) (s : State) (r c : Nat) (hx : x ≠ vf) (hy : y ≠ vf) :
    spriteIndex (drawn x y n s) x y r c = spriteIndex s x y r c := by
  simp only [spriteIndex, drawn, getReg_drawPixels_of_ne s _ hx, getReg_drawPixels_of_ne s _ hy]

/-- DRW writes neither memory nor I, so the sprite is the same one after it. -/
theorem spriteSet_drawn (x y n : Nibble) (s : State) (r c : Nat) :
    SpriteSet (drawn x y n s) n r c ↔ SpriteSet s n r c := Iff.rfl

theorem drawnPixels_drawn {x y : Nibble} (n : Nibble) (s : State) (hx : x ≠ vf) (hy : y ≠ vf) :
    drawnPixels x y n (drawn x y n s) = drawnPixels x y n s := by
  have hvx : getReg (drawn x y n s) x = getReg s x := getReg_drawPixels_of_ne s _ hx
  have hvy : getReg (drawn x y n s) y = getReg s y := getReg_drawPixels_of_ne s _ hy
  rw [drawnPixels, hvx, hvy]
  rfl

theorem spriteFits_drawn {x y n : Nibble} {s : State} (hx : x ≠ vf) (hy : y ≠ vf) (h : SpriteFits s x y n) :
    SpriteFits (drawn x y n s) x y n :=
  ⟨h.1, fun r c hset =>
    (spriteIndex_drawn n s r c hx hy).trans_le (h.2 r c ((spriteSet_drawn x y n s r c).mp hset))⟩

/-- Settles O50: the second draw toggles the same pixels, and finds lit exactly those the first one found unlit. -/
theorem drawingTwiceRestoresTheDisplay : Obligations.DrawingTwiceRestoresTheDisplay := by
  intro x y n s hx hy hfits
  have hfits' : SpriteFits (drawn x y n s) x y n := spriteFits_drawn hx hy hfits
  refine ⟨_, _, exec_drw_fits hfits, exec_drw_fits hfits', display_ext _ _ fun k hk => ?_, ?_⟩
  · rw [pixel_drawn hfits' hk, drawnPixels_drawn n s hx hy, pixel_drawn hfits hk, Bool.xor_assoc, Bool.xor_self,
      Bool.xor_false]
  · simp only [getReg_drawn_vf_eq_one_iff hfits', spriteSet_drawn, spriteIndex_drawn n s _ _ hx hy]
    refine exists₂_congr fun r c => and_congr_right fun hset => ?_
    rw [pixel_drawn_of_spriteSet hfits hset, Bool.not_eq_true']

end Sys2Proof.Machine
end

section
/-! SUPPORT. The two outcomes of the key wait, a key down and none, and the proof of the statement about it
(45_keypad_timers.md R162). -/

namespace Sys2Proof.Machine

/-- `LD Vx, K` with a key found is one register result. -/
theorem exec_ldVxK_of_scanKeys_some {s : State} {k : Nat} (x : Nibble) (h : scanKeys s = some k) :
    exec (.ldVxK x) s = .next (regResult x (BitVec.ofNat 8 k) s) := by
  simp only [exec, execLdVxK, h, regResult]

theorem exec_ldVxK_of_scanKeys_none {s : State} (x : Nibble) (h : scanKeys s = none) :
    exec (.ldVxK x) s = .next s := by
  simp only [exec, execLdVxK, h]

/-- A waiting FX0A leaves the whole Step to the tick, and the Step answers Done (R87, R162). -/
theorem step_ldVxK_of_scanKeys_none {s : State} {op : Word} {x : Nibble} (h : s.halt = false) (hf : fetch s = .ok op)
    (hd : decode op = .ok (.ldVxK x)) (hscan : scanKeys s = none) :
    step s = .next (tick s) ∧ stepResult s = .done := by
  have hstep : step s = .next (tick s) := by
    rw [step_of_decode h hf hd (exec_ldVxK_of_scanKeys_none x hscan), afterExecute_of_running h]
  exact ⟨hstep, (stepResult_done_iff s).mpr ⟨h, op, _, _, hf, hd, nofun, hstep, h⟩⟩

/-- Settles O52: the scan without an early exit ends at the highest key down, whose number fits the register; with none
down it finds nothing, and the execute phase leaves the state to the tick. -/
theorem keyWaitTakesTheHighestKey : Obligations.KeyWaitTakesTheHighestKey := by
  have hdecode (x : Nibble) : decode (wordXNN 0xF x 0x0A) = .ok (.ldVxK x) := decode_encode (i := .ldVxK x) rfl
  refine ⟨hdecode, fun x s k hk hdown habove => ?_,
    fun x s hup => exec_ldVxK_of_scanKeys_none x (scanKeys_none s hup),
    fun x s h hf hup => step_ldVxK_of_scanKeys_none h hf (hdecode x) (scanKeys_none s hup)⟩
  have hval : (getReg (regResult x (BitVec.ofNat 8 k) s) x).toNat = k := by
    rw [getReg_regResult_same, BitVec.toNat_ofNat, Nat.mod_eq_of_lt (by omega)]
  exact ⟨_, exec_ldVxK_of_scanKeys_some x (scanKeys_some s k hk hdown habove), hval, rfl,
    regResult_keepsRegsBut s x _, regResult_keepsAllBut s x _⟩

end Sys2Proof.Machine
end

section
/-! SUPPORT. What keeps the machine's invariant: an unchanged fault status with canonical memory, a fault of R170, and
each phase of the Step; and the proofs of the statements about it (20_memory.md R41, R45, 60_exceptions.md R170, R181). -/

namespace Sys2Proof.Machine

/-! ### The two ways to keep the invariant -/

/-- What writes neither HALT, FCAUSE nor FINFO need only keep memory canonical. -/
theorem MachineInv.of_faultStatus_eq {s t : State} (hi : MachineInv s) (hmem : Memory.wf t.mem)
    (hhalt : t.halt = s.halt) (hfcause : t.fcause = s.fcause) (hfinfo : t.finfo = s.finfo) : MachineInv t := by
  obtain ⟨-, hstatus⟩ := hi
  refine ⟨hmem, ?_⟩
  unfold FaultStatusOk
  rw [hhalt, hfcause, hfinfo]
  exact hstatus

/-- A taken fault of R170 leaves memory alone and a status of its table (R181). -/
theorem raise_keeps_inv {s : State} {f : Fault} (hf : f.InRange) (hi : MachineInv s) : MachineInv (raise f s) :=
  ⟨hi.1, raise_faultStatus f s hf⟩

/-! ### The phases of the Step -/

/-- The fetch faults with the first address it needs outside memory (R82, R174). -/
theorem inRange_of_fetch_error {s : State} {f : Fault} (h : fetch s = .error f) : f.InRange := by
  unfold fetch at h
  split at h
  · cases h
  · exact Except.error.inj h ▸ runFault_inRange s.pc.toNat s.pc.isLt

theorem exec_keeps_inv {i : Instr} {s t : State} (h : exec i s = .next t) (hi : MachineInv s) : MachineInv t := by
  obtain ⟨hhalt, hfcause, hfinfo, -, -, -, -, hmem⟩ | ⟨f, hf, rfl⟩ := exec_next_cases h
  · exact hi.of_faultStatus_eq (hmem hi.1) hhalt hfcause hfinfo
  · exact raise_keeps_inv hf hi

theorem unknownOpcode_keeps_inv {s : State} (hi : MachineInv s) : MachineInv (unknownOpcode s) :=
  hi.of_faultStatus_eq hi.1 rfl rfl rfl

theorem afterExecute_keeps_inv {s : State} (hi : MachineInv s) : MachineInv (afterExecute s) := by
  unfold afterExecute
  split
  · exact hi
  · exact hi.of_faultStatus_eq hi.1 rfl rfl rfl

theorem runWord_keeps_inv {op : Word} {s t : State} (h : runWord op s = .next t) (hi : MachineInv s) :
    MachineInv t := by
  obtain ⟨e, -, hw⟩ | ⟨i, u, -, hx, hw⟩ := runWord_cases op s
  · cases hw.symm.trans h
    exact afterExecute_keeps_inv (unknownOpcode_keeps_inv hi)
  · cases hw.symm.trans h
    exact afterExecute_keeps_inv (exec_keeps_inv hx hi)

theorem step_keeps_inv {s t : State} (h : step s = .next t) (hi : MachineInv s) : MachineInv t := by
  obtain ⟨-, hs⟩ | ⟨-, f, hf, hs⟩ | ⟨-, op, -, hs⟩ := step_cases s
  · cases hs.symm.trans h
    exact hi
  · cases hs.symm.trans h
    exact raise_keeps_inv (inRange_of_fetch_error hf) hi
  · exact runWord_keeps_inv (hs.symm.trans h) hi

/-- Settles O3: a halted Step changes nothing, a fetch fault is in R170's range, and the execute phase and the tick after
it each keep the invariant. -/
theorem stepKeepsTheInvariant : Obligations.StepKeepsTheInvariant := fun _ _ hi h => step_keeps_inv h hi

/-! ### The host's operations -/

/-- A running machine's fault status is clear (R170). -/
theorem faultStatusOk_of_running {s : State} (h : s.halt = false) (hfcause : s.fcause = 0) (hfinfo : s.finfo = 0) :
    FaultStatusOk s := by
  unfold FaultStatusOk
  rw [if_neg (by simp [h])]
  exact ⟨hfcause, hfinfo⟩

/-- Settles O2: memory lists nothing, and the fault status is clear. -/
theorem resetMeetsTheInvariant : Obligations.ResetMeetsTheInvariant :=
  ⟨reset_mem_wf, faultStatusOk_of_running rfl rfl rfl⟩

theorem hostLoad_keeps_inv {s : State} (bytes : List Byte) (hi : MachineInv s) : MachineInv (hostLoad bytes s) := by
  unfold hostLoad
  split
  · exact hi.of_faultStatus_eq (writeRun_wf s.mem _ bytes hi.1) rfl rfl rfl
  · exact hi

/-- Settles O4: Reset meets the invariant afresh, Load is a run of writes, a Step is `step_keeps_inv`, and the other
operations write neither memory nor the fault status. -/
theorem hostOperationsKeepTheInvariant : Obligations.HostOperationsKeepTheInvariant := by
  intro o s t hi h
  cases o with
  | reset => cases h; exact resetMeetsTheInvariant.of_faultStatus_eq reset_mem_wf rfl rfl rfl
  | load bytes => cases h; exact hostLoad_keeps_inv bytes hi
  | setKeys | clearRedraw | clearBeep => cases h; exact hi.of_faultStatus_eq hi.1 rfl rfl rfl
  | step => exact step_keeps_inv h hi

end Sys2Proof.Machine
end

section
/-! SUPPORT. What Load leaves in memory, and the proofs of the statements about loading an image and the boot
(70_reset_and_hazards.md R201, R205, 60_exceptions.md R177). -/

namespace Sys2Proof.Machine

theorem Element.Same.refl (e : Element) (s : State) : e.Same s s := by
  cases e with
  | mem | v => exact fun _ => rfl
  | _ => rfl

/-! ### Load (R201) -/

theorem hostLoad_of_romFits {bytes : List Byte} (s : State) (h : romFits bytes) :
    hostLoad bytes s = setMem s (Memory.writeRun s.mem Config.progBase bytes) := if_pos h

theorem hostLoad_keepsAllBut (bytes : List Byte) (s : State) : KeepsAllBut [.mem] s (hostLoad bytes s) := by
  unfold hostLoad
  split
  · exact setMem_keepsAllBut s _
  · exact fun e _ => Element.Same.refl e s

/-- An accepted image fits between 0x200 and the end of memory, so that byte i stands at 0x200 + i. -/
theorem read_hostLoad {bytes : List Byte} {s : State} {k : Nat} (hm : Memory.wf s.mem) (h : romFits bytes)
    (hk : k < bytes.length) : Memory.read (hostLoad bytes s).mem (Config.progBase + k) = bytes[k] := by
  have hend : Config.progBase + bytes.length ≤ Config.memSize := Nat.add_le_add_left h 512
  rw [hostLoad_of_romFits s h]
  exact read_writeRun_inside s.mem _ k bytes hm hend hk

theorem hostLoad_keepsBytesOutside {bytes : List Byte} (s : State) (h : romFits bytes) :
    KeepsBytesOutside Config.progBase bytes.length s (hostLoad bytes s) := by
  rw [hostLoad_of_romFits s h]
  exact fun a ha => read_writeRun_outside s.mem _ a bytes ha

/-- Settles O5: an image that fits is one run of writes at 0x200; for a longer one the test of Load fails, and with it
both the answer and the copy. -/
theorem loadCopiesOrRefusesTheImage : Obligations.LoadCopiesOrRefusesTheImage := by
  refine ⟨fun bytes s hm h => ?_, fun bytes s h => ?_⟩
  · have hfits : romFits bytes := h
    exact ⟨if_pos hfits, hostLoad bytes s, rfl, fun _ hk => read_hostLoad hm hfits hk,
      hostLoad_keepsBytesOutside s hfits, hostLoad_keepsAllBut bytes s⟩
  · have hlarge : ¬ romFits bytes := Nat.not_le_of_lt h
    exact ⟨if_neg hlarge, congrArg Host.Outcome.next (if_neg hlarge)⟩

/-! ### The first fetch after Reset (R205) -/

/-- With PC at 0x200 the word a loaded machine fetches is the image's first two bytes, high byte first (R42). -/
theorem fetch_hostLoad {bytes : List Byte} {s : State} (hm : Memory.wf s.mem) (hpc : s.pc = 0x0200)
    (h2 : 2 ≤ bytes.length) (h : romFits bytes) :
    fetch (hostLoad bytes s) = .ok (wordOfBytes bytes[0] bytes[1]) := by
  have hpcLoaded : (hostLoad bytes s).pc.toNat = 0x200 := by
    rw [hostLoad_keepsAllBut bytes s .pc (by decide), hpc]
    rfl
  have h0 : Memory.read (hostLoad bytes s).mem 0x200 = bytes[0] := read_hostLoad hm h (k := 0) (by omega)
  have h1 : Memory.read (hostLoad bytes s).mem 0x201 = bytes[1] := read_hostLoad hm h (k := 1) h2
  rw [fetch_ok _ (by rw [hpcLoaded]; decide), hpcLoaded, h0, h1]

/-- With both timers at 0 the tick has nothing to do (R85). -/
theorem tick_of_timers_zero {s : State} (hdt : s.dt = 0) (hst : s.st = 0) : tick s = s := by
  cases s
  simp_all [tick, countDown]

/-- Before any Load memory past the font is zero, and the fetch is SYS 0x000. -/
theorem fetch_reset : fetch State.reset = .ok 0x0000 := fetch_ok State.reset (by decide)

/-- Settles O6: the image's first two bytes are fetched at 0x200; without one the word 0x0000 is reported, and its tick
finds both timers at 0. -/
theorem bootRunsTheLoadedImage : Obligations.BootRunsTheLoadedImage := by
  refine ⟨fun s bytes h2 h => ?_, ?_⟩
  · have hkeeps := hostLoad_keepsAllBut bytes (hostReset s)
    exact ⟨hostReset s, hostLoad bytes (hostReset s), _, rfl, rfl, hkeeps .pc (by decide), hkeeps .halt (by decide),
      fetch_hostLoad (s := hostReset s) reset_mem_wf rfl h2 h, wordOfBytes_toNat _ _⟩
  · have hrep : reportsUnknown 0x0000 = true := rfl
    have hstep : step State.reset = .next (unknownOpcode State.reset) := by
      rw [step_of_reportsUnknown rfl fetch_reset hrep, tick_of_timers_zero rfl rfl]
    have hkeeps : KeepsAllBut [.pc, .unk] State.reset (unknownOpcode State.reset) := fun e he =>
      unknownOpcode_keepsAllBut State.reset e (by simpa [and_comm] using he)
    exact ⟨stepResult_of_reportsUnknown rfl fetch_reset hrep, _, hstep, rfl, rfl, hkeeps⟩

end Sys2Proof.Machine
end

section
/-! SUPPORT. The elements that are the host's to write: no Step moves KEYS or clears REDRAW or BEEP; and the proofs of the
statements about the host's key snapshot and clears (70_reset_and_hazards.md R202, R203). -/

namespace Sys2Proof.Machine

/-! ### What the machine leaves to the host -/

/-- The machine has not touched the keys and has cleared neither REDRAW nor BEEP. -/
def LeavesHostControls (s t : State) : Prop :=
  t.keys = s.keys ∧ (s.redraw = true → t.redraw = true) ∧ (s.beep = true → t.beep = true)

theorem LeavesHostControls.refl (s : State) : LeavesHostControls s s := ⟨rfl, id, id⟩

theorem LeavesHostControls.trans {s t u : State} (hst : LeavesHostControls s t) (htu : LeavesHostControls t u) :
    LeavesHostControls s u := by
  obtain ⟨hkeys, hredraw, hbeep⟩ := hst
  obtain ⟨hkeys', hredraw', hbeep'⟩ := htu
  exact ⟨hkeys'.trans hkeys, hredraw' ∘ hredraw, hbeep' ∘ hbeep⟩

theorem exec_leavesHostControls {i : Instr} {s t : State} (h : exec i s = .next t) : LeavesHostControls s t := by
  obtain ⟨-, -, -, hkeys, hbeep, hredraw, -, -⟩ | ⟨f, -, rfl⟩ := exec_next_cases h
  · exact ⟨hkeys, hredraw, hbeep.trans⟩
  · exact .refl s

/-- The tick can set BEEP and never clears it (R22, R85). -/
theorem afterExecute_leavesHostControls (t : State) : LeavesHostControls t (afterExecute t) := by
  unfold afterExecute
  split
  · exact .refl t
  · exact ⟨rfl, id, fun hbeep => by simp [hbeep]⟩

theorem step_leavesHostControls {s t : State} (h : step s = .next t) : LeavesHostControls s t := by
  obtain ⟨-, hs⟩ | ⟨-, f, -, hs⟩ | ⟨-, op, -, hs⟩ := step_cases s
  · cases hs.symm.trans h
    exact .refl s
  · cases hs.symm.trans h
    exact .refl s
  · obtain ⟨e, -, hw⟩ | ⟨i, u, -, hx, hw⟩ := runWord_cases op s
    · cases (hs.trans hw).symm.trans h
      exact afterExecute_leavesHostControls (unknownOpcode s)
    · cases (hs.trans hw).symm.trans h
      exact (exec_leavesHostControls hx).trans (afterExecute_leavesHostControls u)

theorem hostLoad_leavesHostControls (bytes : List Byte) (s : State) : LeavesHostControls s (hostLoad bytes s) := by
  have hkeeps := hostLoad_keepsAllBut bytes s
  have hredraw : (hostLoad bytes s).redraw = s.redraw := hkeeps .redraw (by decide)
  have hbeep : (hostLoad bytes s).beep = s.beep := hkeeps .beep (by decide)
  exact ⟨hkeeps .keys (by decide), hredraw.trans, hbeep.trans⟩

/-! ### The host's three writes (R202, R203) -/

theorem hostSetKeys_keepsAllBut (k : BitVec 16) (s : State) : KeepsAllBut [.keys] s (hostSetKeys k s) := by
  intro e he
  cases e with
  | keys => simp at he
  | mem | v => exact fun _ => rfl
  | _ => rfl

theorem hostClearRedraw_keepsAllBut (s : State) : KeepsAllBut [.redraw] s (hostClearRedraw s) := by
  intro e he
  cases e with
  | redraw => simp at he
  | mem | v => exact fun _ => rfl
  | _ => rfl

theorem hostClearBeep_keepsAllBut (s : State) : KeepsAllBut [.beep] s (hostClearBeep s) := by
  intro e he
  cases e with
  | beep => simp at he
  | mem | v => exact fun _ => rfl
  | _ => rfl

/-- Settles O7: SetKeys is one write; Load and the Step leave the host's controls, and each clear writes its own flag. -/
theorem setKeysStoresTheSnapshot : Obligations.SetKeysStoresTheSnapshot := by
  refine ⟨fun k s => ⟨hostSetKeys k s, rfl, fun _ _ => rfl, hostSetKeys_keepsAllBut k s⟩, fun o s t h hreset hset => ?_⟩
  cases o with
  | reset => exact absurd rfl hreset
  | setKeys k => exact absurd rfl (hset k)
  | load bytes => cases h; exact (hostLoad_leavesHostControls bytes s).1
  | clearRedraw | clearBeep => cases h; rfl
  | step => exact (step_leavesHostControls h).1

/-- Settles O8: each clear is one write, so it keeps the other flag; Load and the Step leave the host's controls. -/
theorem redrawAndBeepAreClearedByTheHost : Obligations.RedrawAndBeepAreClearedByTheHost := by
  refine ⟨fun s => ⟨hostClearRedraw s, rfl, rfl, hostClearRedraw_keepsAllBut s⟩,
    fun s => ⟨hostClearBeep s, rfl, rfl, hostClearBeep_keepsAllBut s⟩, fun o s t h hreset => ?_⟩
  cases o with
  | reset => exact absurd rfl hreset
  | setKeys k => cases h; exact ⟨fun _ => id, fun _ => id⟩
  | clearRedraw => cases h; exact ⟨absurd rfl, fun _ => id⟩
  | clearBeep => cases h; exact ⟨fun _ => id, absurd rfl⟩
  | load bytes =>
    cases h
    obtain ⟨-, hredraw, hbeep⟩ := hostLoad_leavesHostControls bytes s
    exact ⟨fun _ => hredraw, fun _ => hbeep⟩
  | step =>
    obtain ⟨-, hredraw, hbeep⟩ := step_leavesHostControls h
    exact ⟨fun _ => hredraw, fun _ => hbeep⟩

end Sys2Proof.Machine
end

section
/-! SUPPORT. The machine at a jump to itself, and the proof of the statement about it (70_reset_and_hazards.md R210). -/

namespace Sys2Proof.Machine

/-- The two bytes R210 puts at a are the word of `JP a`, high byte first (R42, R62). -/
theorem wordOfBytes_jp (a : Addr) :
    wordOfBytes (0x10#8 ||| (a >>> 8).setWidth 8) (a.extractLsb' 0 8) = encode (.jp a) := by
  apply BitVec.eq_of_getLsbD_eq
  intro i hi
  interval_cases i <;> simp [wordOfBytes, encode, wordNNN]

/-- An idle machine fetches its jump. -/
theorem IdleAt.fetch_eq {a : Addr} {s : State} (h : IdleAt a s) : fetch s = .ok (encode (.jp a)) := by
  obtain ⟨-, hpc, hin, hhigh, hlow⟩ := h
  have haddr : s.pc.toNat = a.toNat := (congrArg BitVec.toNat hpc).trans (addrOperand_toNat a)
  rw [fetch_ok s (by rwa [haddr]), haddr, hhigh, hlow, wordOfBytes_jp]

/-- The jump of an idle machine goes where PC already is. -/
theorem IdleAt.exec_jp {a : Addr} {s : State} (h : IdleAt a s) : exec (.jp a) s = .next s := by
  obtain ⟨-, hpc, -⟩ := h
  calc exec (.jp a) s = .next (setPc s (addrOperand a)) := rfl
    _ = .next (setPc s s.pc) := by rw [hpc, addrOperand]
    _ = .next s := rfl

/-- The tick writes nothing that the idle state speaks of. -/
theorem IdleAt.tick {a : Addr} {s : State} (h : IdleAt a s) : IdleAt a (tick s) := h

/-- Settles O27: the execute phase of the jump changes nothing, so the Step is its tick. -/
theorem idleMachineStaysIdle : Obligations.IdleMachineStaysIdle := by
  intro a s h
  have hrunning : s.halt = false := h.1
  have hdecode : decode (encode (.jp a)) = .ok (.jp a) := decode_encode rfl
  have hstep : step s = .next (tick s) := by
    rw [step_of_decode hrunning h.fetch_eq hdecode h.exec_jp, afterExecute_of_running hrunning]
  exact ⟨hstep, h.tick, (stepResult_done_iff s).mpr ⟨hrunning, _, _, _, h.fetch_eq, hdecode, nofun, hstep, hrunning⟩⟩

end Sys2Proof.Machine
end

section
/-! SUPPORT. What the call stack's push and pop leave, the skips and the event, and the proofs of the statements about
SYS, RET, CALL, JP V0 and the skips (41_control_flow.md R100 to R108, 45_keypad_timers.md R160, R161). -/

namespace Sys2Proof.Machine

/-! ### Frames -/

theorem setStack_keepsAllBut (s : State) (stack : Vector Word 16) (sp : Fin 17) :
    KeepsAllBut [.stack, .sp] s (setStack s stack sp) := by
  intro e he
  cases e with
  | stack | sp => simp at he
  | mem | v => exact fun _ => rfl
  | _ => rfl

/-- An element that ends as it began need not be listed as written. -/
theorem KeepsAllBut.of_same {w w' : List Element} {e₀ : Element} {s t : State} (h : KeepsAllBut w s t)
    (hsame : e₀.Same s t) (hw : ∀ e ∈ w, e = e₀ ∨ e ∈ w') : KeepsAllBut w' s t := by
  intro e he
  by_cases hmem : e ∈ w
  · obtain rfl | hw' := hw e hmem
    · exact hsame
    · exact absurd hw' he
  · exact h e hmem

/-! ### SYS (R100) -/

theorem decode_sys {nnn : Addr} (hcls : nnn ≠ 0x0E0#12) (hret : nnn ≠ 0x0EE#12) :
    decode (wordNNN 0x0 nnn) = .ok (.sys nnn) :=
  decode_encode (i := .sys nnn) (by simp [WellFormed, sysAddressOk, hcls, hret])

/-- Settles O29: with the two fixed words excluded the word is SYS's, whose effect is the event of an unknown opcode. -/
theorem sysReportsUnknownOpcode : Obligations.SysReportsUnknownOpcode :=
  ⟨fun _ hcls hret => decode_sys hcls hret,
    fun _ s => ⟨unknownOpcode s, rfl, rfl, rfl, unknownOpcode_keepsAllBut s⟩,
    fun nnn _ hcls hret h hf =>
      stepResult_of_reportsUnknown h hf ((reportsUnknown_iff _).mpr (.inr ⟨nnn, decode_sys hcls hret⟩))⟩

/-! ### RET (R101) -/

/-- The next state of `RET` when entry n is the last one in use. -/
def returned (n : Nat) (hn : n < 16) (s : State) : State :=
  setPc (setStack s s.stack ⟨n, Nat.lt_succ_of_lt hn⟩) (s.stack[n] + 2)

theorem exec_ret_of_used {n : Nat} {s : State} (hn : n < 16) (h : s.sp.val = n + 1) :
    exec .ret s = .next (returned n hn s) := by
  rw [exec, execRet, returnFromCall_ok s n hn h]
  rfl

theorem exec_ret_empty {s : State} (h : s.sp.val = 0) : exec .ret s = .next (raise .stackUnderflow s) := by
  rw [exec, execRet, returnFromCall_empty s h]
  rfl

/-- RET writes the stack it found, so the popped entry stays (D30). -/
theorem returned_keepsAllBut (n : Nat) (hn : n < 16) (s : State) : KeepsAllBut [.sp, .pc] s (returned n hn s) :=
  ((setStack_keepsAllBut s _ _).trans (setPc_keepsAllBut _ _)).of_same (e₀ := .stack) rfl (by decide)

/-- Settles O30: a used entry is popped and PC set two past it; the empty stack is StackUnderflow. -/
theorem retPopsTheCallAddress : Obligations.RetPopsTheCallAddress :=
  ⟨decode_encode (i := .ret) rfl,
    fun s n hn h => ⟨_, exec_ret_of_used hn h, rfl, BitVec.toNat_add .., returned_keepsAllBut n hn s⟩,
    fun s h => ⟨_, exec_ret_empty (congrArg Fin.val h), raise_faultTaken .stackUnderflow s⟩⟩

/-! ### CALL (R103) -/

/-- The next state of `CALL` when the stack has room. -/
def called (nnn : Addr) (s : State) (h : s.sp.val < 16) : State :=
  setPc (setStack s (s.stack.set s.sp.val s.pc h) ⟨s.sp.val + 1, Nat.succ_lt_succ h⟩) (addrOperand nnn)

theorem exec_call_of_room (nnn : Addr) {s : State} (h : s.sp.val < 16) :
    exec (.call nnn) s = .next (called nnn s h) := by
  rw [exec, execCall, callAddress_ok nnn s h]
  rfl

theorem exec_call_full (nnn : Addr) {s : State} (h : s.sp.val = 16) :
    exec (.call nnn) s = .next (raise .stackOverflow s) := by
  rw [exec, execCall, callAddress_full nnn s h]
  rfl

theorem called_stack_top (nnn : Addr) (s : State) (h : s.sp.val < 16) : (called nnn s h).stack[s.sp.val] = s.pc :=
  Vector.getElem_set_self h

theorem called_stack_of_ne {nnn : Addr} {s : State} {h : s.sp.val < 16} {k : Nat} (hk : k < 16)
    (hne : k ≠ s.sp.val) : (called nnn s h).stack[k] = s.stack[k] := Vector.getElem_set_ne h hk hne.symm

theorem called_keepsAllBut (nnn : Addr) (s : State) (h : s.sp.val < 16) :
    KeepsAllBut [.stack, .sp, .pc] s (called nnn s h) := (setStack_keepsAllBut s _ _).trans (setPc_keepsAllBut _ _)

/-- Settles O33: the push writes one entry of the stack and SP; a full stack is StackOverflow. -/
theorem callPushesItsOwnAddress : Obligations.CallPushesItsOwnAddress :=
  ⟨fun nnn => decode_encode (i := .call nnn) rfl,
    fun nnn s h => ⟨_, exec_call_of_room nnn h, called_stack_top nnn s h, fun _ hk hne => called_stack_of_ne hk hne, rfl,
      addrOperand_toNat nnn, called_keepsAllBut nnn s h⟩,
    fun nnn s h => ⟨_, exec_call_full nnn h, raise_faultTaken .stackOverflow s⟩⟩

/-- Settles O34: RET pops the entry that CALL pushed, which is the last one in use, and SP is back where it was. -/
theorem retUndoesCall : Obligations.RetUndoesCall := by
  intro nnn s h
  have hret : exec .ret (called nnn s h) = .next (returned s.sp.val h (called nnn s h)) := exec_ret_of_used h rfl
  have hpc : (returned s.sp.val h (called nnn s h)).pc = s.pc + 2 :=
    congrArg (· + 2) (called_stack_top nnn s h)
  have hkeeps : KeepsAllBut [.stack, .pc] s (returned s.sp.val h (called nnn s h)) :=
    ((called_keepsAllBut nnn s h).trans (returned_keepsAllBut _ h _)).of_same (e₀ := .sp) rfl (by decide)
  exact ⟨_, _, exec_call_of_room nnn h, hret, hpc, rfl, hkeeps⟩

/-! ### JP V0 (R108) -/

/-- The largest target, 0xFFF + 0xFF, is a 16-bit number, so that the sum does not wrap. -/
theorem addrOperand_add_byteOperand_toNat (nnn : Addr) (b : Byte) :
    (addrOperand nnn + byteOperand b).toNat = nnn.toNat + b.toNat := by
  have hnnn : nnn.toNat < 4096 := nnn.isLt
  have hb : b.toNat < 256 := b.isLt
  rw [BitVec.toNat_add, addrOperand_toNat, byteOperand, BitVec.toNat_setWidth_of_le (by decide)]
  omega

/-- Settles O32: the one write is PC at the unmasked sum. -/
theorem jumpByV0AddsWithoutMask : Obligations.JumpByV0AddsWithoutMask :=
  ⟨fun nnn => decode_encode (i := .jpV0 nnn) rfl, fun nnn s =>
    ⟨_, rfl, addrOperand_add_byteOperand_toNat nnn (getReg s 0), setPc_keepsAllBut s _⟩⟩

/-! ### Skips (R104 to R107) -/

/-- What the skips share: PC by the condition, and nothing else. -/
theorem exists_next_of_skipIf {i : Instr} {s : State} {c : Bool} {p : Prop} [Decidable p]
    (hexec : exec i s = .next (skipIf c s)) (hc : c = true ↔ p) :
    ∃ t, exec i s = .next t ∧ t.pc = (if p then s.pc + 4 else s.pc + 2) ∧ KeepsAllBut [.pc] s t :=
  ⟨_, hexec, by simp only [skipIf_pc, hc], setPc_keepsAllBut s _⟩

/-- A skip on the failing of p. -/
theorem exists_next_of_skipIf_not {i : Instr} {s : State} {c : Bool} {p : Prop} [Decidable p]
    (hexec : exec i s = .next (skipIf c s)) (hc : c = true ↔ ¬ p) :
    ∃ t, exec i s = .next t ∧ t.pc = (if p then s.pc + 2 else s.pc + 4) ∧ KeepsAllBut [.pc] s t := by
  simpa only [ite_not] using exists_next_of_skipIf hexec hc

theorem byte_beq_iff_toNat_eq (a b : Byte) : (a == b) = true ↔ a.toNat = b.toNat :=
  beq_iff_eq.trans BitVec.toNat_inj.symm

theorem byte_bne_iff_toNat_ne (a b : Byte) : (a != b) = true ↔ ¬ a.toNat = b.toNat :=
  bne_iff_ne.trans (not_congr BitVec.toNat_inj.symm)

/-- Settles O35: bytes are equal exactly when their numbers are, and each skip writes PC alone. -/
theorem skipsTestTheirCondition : Obligations.SkipsTestTheirCondition :=
  ⟨fun x nn => decode_encode (i := .seImm x nn) rfl, fun x nn => decode_encode (i := .sneImm x nn) rfl,
    fun x y => decode_encode (i := .seReg x y) rfl, fun x y => decode_encode (i := .sneReg x y) rfl,
    fun _ _ _ => exists_next_of_skipIf rfl (byte_beq_iff_toNat_eq ..),
    fun _ _ _ => exists_next_of_skipIf_not rfl (byte_bne_iff_toNat_ne ..),
    fun _ _ _ => exists_next_of_skipIf rfl (byte_beq_iff_toNat_eq ..),
    fun _ _ _ => exists_next_of_skipIf_not rfl (byte_bne_iff_toNat_ne ..)⟩

/-! ### Key skips (R160, R161) -/

theorem skipOnKey_ok {x : Nibble} {s : State} (wanted : Bool) (h : (getReg s x).toNat ≤ 15) :
    skipOnKey x wanted s = .ok (skipIf (keyDown s (getReg s x).toNat == wanted) s) := by
  rw [skipOnKey, keyOperand_ok _ (Nat.lt_succ_of_le h), Except.map]

theorem skipOnKey_error {x : Nibble} {s : State} (wanted : Bool) (h : 15 < (getReg s x).toNat) :
    skipOnKey x wanted s = .error (.keyIndexOutOfRange (getReg s x)) := by
  rw [skipOnKey, keyOperand_error _ h, Except.map]

/-- A key number above 15 is the precise fault 6 with that number (R176). -/
theorem exists_faultTaken_of_skipOnKey {i : Instr} {x : Nibble} {wanted : Bool} {s : State}
    (hexec : exec i s = orRaise s (skipOnKey x wanted s)) (h : 15 < (getReg s x).toNat) :
    ∃ t, exec i s = .next t ∧ FaultTaken 6 (BitVec.ofNat 16 (getReg s x).toNat) s t := by
  rw [skipOnKey_error wanted h] at hexec
  rw [BitVec.ofNat_toNat]
  exact ⟨_, hexec, raise_faultTaken (.keyIndexOutOfRange (getReg s x)) s⟩

/-- Settles O51: a key number up to 15 leaves a skip on its key, a greater one the fault. -/
theorem keySkipsTestTheSnapshot : Obligations.KeySkipsTestTheSnapshot := by
  refine ⟨fun x => decode_encode (i := .skp x) rfl, fun x => decode_encode (i := .sknp x) rfl, fun x s h => ?_,
    fun x s h => ?_, fun x s h => ⟨exists_faultTaken_of_skipOnKey rfl h, exists_faultTaken_of_skipOnKey rfl h⟩⟩
  · have hexec : exec (.skp x) s = .next (skipIf (keyDown s (getReg s x).toNat == true) s) :=
      congrArg (orRaise s) (skipOnKey_ok true h)
    exact exists_next_of_skipIf hexec (by simp)
  · have hexec : exec (.sknp x) s = .next (skipIf (keyDown s (getReg s x).toNat == false) s) :=
      congrArg (orRaise s) (skipOnKey_ok false h)
    exact exists_next_of_skipIf_not hexec (by simp)

end Sys2Proof.Machine
end

section
/-! SUPPORT. The instructions that write one register or I alone, and the proofs of the statements about them
(42_alu.md R120 to R125, 43_index_memory.md R140 to R142). -/

namespace Sys2Proof.Machine

/-! ### One register and no flag (R120 to R125) -/

/-- What these six instructions share: V[X] is the result, whatever is known of it, and no other register changes. -/
theorem exists_next_of_regResult {i : Instr} {s : State} {x : Nibble} {result : Byte} (P : Byte → Prop)
    (hexec : exec i s = .next (regResult x result s)) (hresult : P result) :
    ∃ t, exec i s = .next t ∧ P (getReg t x) ∧ t.pc = s.pc + 2 ∧ KeepsRegsBut [x] s t ∧ KeepsAllBut [.v, .pc] s t :=
  ⟨_, hexec, (getReg_regResult_same s x result).symm ▸ hresult, rfl, regResult_keepsRegsBut s x result,
    regResult_keepsAllBut s x result⟩

/-- Settles O36: each is one register result, the immediate itself or the sum of bytes, which is modulo 256. -/
theorem immediateLoadAndAdd : Obligations.ImmediateLoadAndAdd :=
  ⟨fun x nn => decode_encode (i := .ldImm x nn) rfl, fun x nn => decode_encode (i := .addImm x nn) rfl,
    fun _ nn _ => exists_next_of_regResult (· = nn) rfl rfl,
    fun x nn s => exists_next_of_regResult (fun b => b.toNat = ((getReg s x).toNat + nn.toNat) % 256) rfl
      (BitVec.toNat_add ..)⟩

/-- Settles O37: each is one register result, of which every bit is known. -/
theorem moveAndBitwise : Obligations.MoveAndBitwise :=
  ⟨fun x y => decode_encode (i := .ldReg x y) rfl, fun x y => decode_encode (i := .orReg x y) rfl,
    fun x y => decode_encode (i := .andReg x y) rfl, fun x y => decode_encode (i := .xorReg x y) rfl,
    fun _ y s => exists_next_of_regResult (· = getReg s y) rfl rfl,
    fun x y s => exists_next_of_regResult
      (fun b => ∀ k, b.getLsbD k = ((getReg s x).getLsbD k || (getReg s y).getLsbD k)) rfl
      fun _ => BitVec.getLsbD_or,
    fun x y s => exists_next_of_regResult
      (fun b => ∀ k, b.getLsbD k = ((getReg s x).getLsbD k && (getReg s y).getLsbD k)) rfl
      fun _ => BitVec.getLsbD_and,
    fun x y s => exists_next_of_regResult
      (fun b => ∀ k, b.getLsbD k = ((getReg s x).getLsbD k != (getReg s y).getLsbD k)) rfl
      fun _ => BitVec.getLsbD_xor⟩

/-! ### I alone (R140 to R142) -/

/-- What the three index instructions share: I is the new value, as a number, and PC advances. -/
theorem exists_next_of_setIndex {i : Instr} {s : State} {w : Word} {n : Nat}
    (hexec : exec i s = .next (advance (setIndex s w))) (hw : w.toNat = n) :
    ∃ t, exec i s = .next t ∧ t.i.toNat = n ∧ t.pc = s.pc + 2 ∧ KeepsAllBut [.i, .pc] s t :=
  ⟨_, hexec, hw, rfl, (setIndex_keepsAllBut s w).trans (advance_keepsAllBut _)⟩

theorem word_add_byteOperand_toNat (w : Word) (b : Byte) :
    (w + byteOperand b).toNat = (w.toNat + b.toNat) % 65536 := by
  rw [BitVec.toNat_add, byteOperand, BitVec.toNat_setWidth_of_le (by decide)]

/-- The font begins at 0, and 5 * 255 is a 16-bit number. -/
theorem glyphAddress_toNat (b : Byte) : (glyphAddress b).toNat = 0x000 + 5 * b.toNat := by
  have hb : b.toNat < 256 := b.isLt
  rw [glyphAddress, fontBase, BitVec.toNat_ofNat]
  omega

/-- Settles O43: the three values of I as numbers; only the sum can pass 65535. -/
theorem indexLoadsAndSums : Obligations.IndexLoadsAndSums :=
  ⟨fun nnn => decode_encode (i := .ldI nnn) rfl, fun x => decode_encode (i := .addI x) rfl,
    fun x => decode_encode (i := .ldF x) rfl, fun nnn _ => exists_next_of_setIndex rfl (addrOperand_toNat nnn),
    fun _ _ => exists_next_of_setIndex rfl (word_add_byteOperand_toNat ..),
    fun _ _ => exists_next_of_setIndex rfl (glyphAddress_toNat _)⟩

end Sys2Proof.Machine
end

section
/-! SUPPORT. The element frame of every instruction, and the proofs of the statements about the whole machine: the frame,
the halted machine, precise faults and totality (40_step_cycle.md R80 to R86, 60_exceptions.md R178, R181). -/

namespace Sys2Proof.Machine

/-! ### The element frame of the checked instructions -/

/-- A checked instruction writes what its own next state writes, or its fault is taken (R86). -/
theorem orRaise_keepsAllBut_or_faultTaken {w : List Element} {s t : State} {r : Except Fault State}
    (h : orRaise s r = .next t) (hok : ∀ u, r = .ok u → KeepsAllBut w s u) :
    KeepsAllBut w s t ∨ FaultTaken t.fcause t.finfo s t := by
  obtain hr | ⟨f, -, rfl⟩ := orRaise_next_cases h
  · exact .inl (hok t hr)
  · exact .inr (raise_faultTaken f s)

theorem returnFromCall_keepsAllBut {s u : State} (h : returnFromCall s = .ok u) : KeepsAllBut [.sp, .pc] s u := by
  obtain h0 | ⟨n, hn, hsp⟩ := sp_cases s
  · cases (returnFromCall_empty s h0).symm.trans h
  · cases (returnFromCall_ok s n hn hsp).symm.trans h
    exact returned_keepsAllBut n hn s

theorem callAddress_keepsAllBut {nnn : Addr} {s u : State} (h : callAddress nnn s = .ok u) :
    KeepsAllBut [.stack, .sp, .pc] s u := by
  obtain hs | hs : s.sp.val < 16 ∨ s.sp.val = 16 := by omega
  · cases (callAddress_ok nnn s hs).symm.trans h
    exact called_keepsAllBut nnn s hs
  · cases (callAddress_full nnn s hs).symm.trans h

theorem skipOnKey_keepsAllBut {x : Nibble} {wanted : Bool} {s u : State} (h : skipOnKey x wanted s = .ok u) :
    KeepsAllBut [.pc] s u := by
  obtain hk | hk := le_or_gt (getReg s x).toNat 15
  · cases (skipOnKey_ok wanted hk).symm.trans h
    exact setPc_keepsAllBut s _
  · cases (skipOnKey_error wanted hk).symm.trans h

theorem storeAtIndex_keepsAllBut {bytes : List Byte} {k : Nat} {s u : State} (h : storeAtIndex bytes k s = .ok u) :
    KeepsAllBut [.mem, .i, .pc] s u := by
  obtain ⟨m, -, e⟩ | e := storeAtIndex_cases bytes k s <;> cases e.symm.trans h
  exact ((setMem_keepsAllBut s m).trans (setIndex_keepsAllBut _ _)).trans (advance_keepsAllBut _)

/-- A store that advances I by 0 leaves it (R143). -/
theorem storeAtIndex_zero_keepsAllBut {bytes : List Byte} {s u : State} (h : storeAtIndex bytes 0 s = .ok u) :
    KeepsAllBut [.mem, .pc] s u := by
  have hi : u.i = s.i := by
    obtain ⟨m, -, e⟩ | e := storeAtIndex_cases bytes 0 s <;> cases e.symm.trans h
    simp
  exact (storeAtIndex_keepsAllBut h).of_same (e₀ := .i) hi (by decide)

theorem loadAtIndex_keepsAllBut {count : Nat} {s u : State} (h : loadAtIndex count s = .ok u) :
    KeepsAllBut [.v, .i, .pc] s u := by
  obtain e | e := loadAtIndex_cases count s <;> cases e.symm.trans h
  exact ((setRegs_keepsAllBut s _).trans (setIndex_keepsAllBut _ _)).trans (advance_keepsAllBut _)

theorem drawPixels_keepsAllBut (pixels : List Nat) (s : State) :
    KeepsAllBut [.v, .disp, .redraw, .pc] s (drawPixels pixels s) :=
  ((setReg_keepsAllBut s vf _).trans (showDisplay_keepsAllBut _ _)).trans (advance_keepsAllBut _)

theorem exec_ldVxK_keepsAllBut {x : Nibble} {s t : State} (h : exec (.ldVxK x) s = .next t) :
    KeepsAllBut [.v, .pc] s t := by
  cases hk : scanKeys s with
  | some k =>
    obtain rfl := Host.Outcome.next.inj ((exec_ldVxK_of_scanKeys_some x hk).symm.trans h)
    exact regResult_keepsAllBut s x _
  | none =>
    obtain rfl := Host.Outcome.next.inj ((exec_ldVxK_of_scanKeys_none x hk).symm.trans h)
    exact fun e _ => .refl e s

/-! ### The element frame over all instructions -/

/-- Every instruction writes the elements of its row, or its fault is taken. -/
theorem exec_keepsAllBut_or_faultTaken {i : Instr} {s t : State} (h : exec i s = .next t) :
    KeepsAllBut (writtenElements i) s t ∨ FaultTaken t.fcause t.finfo s t := by
  cases i with
  | ret => exact orRaise_keepsAllBut_or_faultTaken h fun _ => returnFromCall_keepsAllBut
  | call => exact orRaise_keepsAllBut_or_faultTaken h fun _ => callAddress_keepsAllBut
  | skp | sknp => exact orRaise_keepsAllBut_or_faultTaken h fun _ => skipOnKey_keepsAllBut
  | ldB => exact orRaise_keepsAllBut_or_faultTaken h fun _ => storeAtIndex_zero_keepsAllBut
  | ldMemVx => exact orRaise_keepsAllBut_or_faultTaken h fun _ => storeAtIndex_keepsAllBut
  | ldVxMem => exact orRaise_keepsAllBut_or_faultTaken h fun _ => loadAtIndex_keepsAllBut
  | ldVxK => exact .inl (exec_ldVxK_keepsAllBut h)
  | drw =>
    obtain ⟨pixels, rfl⟩ | ⟨f, rfl⟩ := execDrw_next_cases h
    · exact .inl (drawPixels_keepsAllBut pixels s)
    · exact .inr (raise_faultTaken f s)
  | sys =>
    obtain rfl := Host.Outcome.next.inj h
    exact .inl (unknownOpcode_keepsAllBut s)
  | cls =>
    obtain rfl := Host.Outcome.next.inj h
    exact .inl ((showDisplay_keepsAllBut s 0).trans (advance_keepsAllBut _))
  | jp | jpV0 | seImm | sneImm | seReg | sneReg =>
    obtain rfl := Host.Outcome.next.inj h
    exact .inl (setPc_keepsAllBut s _)
  | ldImm | addImm | ldReg | orReg | andReg | xorReg | ldVxDt =>
    obtain rfl := Host.Outcome.next.inj h
    exact .inl (regResult_keepsAllBut s _ _)
  | addReg | sub | shr | subn | shl =>
    obtain rfl := Host.Outcome.next.inj h
    exact .inl (flaggedResult_keepsAllBut s _ _ _)
  | rnd =>
    obtain rfl := Host.Outcome.next.inj h
    exact .inl ((regResult_keepsAllBut s _ _).trans (consumeDraw_keepsAllBut _))
  | ldI | addI | ldF =>
    obtain rfl := Host.Outcome.next.inj h
    exact .inl ((setIndex_keepsAllBut s _).trans (advance_keepsAllBut _))
  | ldDtVx =>
    obtain rfl := Host.Outcome.next.inj h
    exact .inl ((setDelay_keepsAllBut s _).trans (advance_keepsAllBut _))
  | ldStVx =>
    obtain rfl := Host.Outcome.next.inj h
    exact .inl ((setSound_keepsAllBut s _).trans (advance_keepsAllBut _))

/-- Settles O25: the frame by the families of instructions, each from the frames of the operations it is made of. -/
theorem instructionsWriteOnlyTheirElements : Obligations.InstructionsWriteOnlyTheirElements :=
  fun _ _ _ h => exec_keepsAllBut_or_faultTaken h

/-! ### The Step: totality, precise faults, the halted machine -/

/-- Settles O22: a halted Step answers its own state, a fetch fault is taken, and a fetched word always leads on. -/
theorem everyStepHasANextState : Obligations.EveryStepHasANextState := by
  intro s
  obtain ⟨-, hs⟩ | ⟨-, f, -, hs⟩ | ⟨-, op, -, hs⟩ := step_cases s
  · exact ⟨s, hs⟩
  · exact ⟨raise f s, hs⟩
  · obtain ⟨t, hw⟩ := runWord_next op s
    exact ⟨t, hs.trans hw⟩

/-- Settles O20: only `raise` halts a running machine, it writes the fault status alone, and the Step answers it. -/
theorem haltingFaultsArePrecise : Obligations.HaltingFaultsArePrecise := by
  intro s t h hs ht
  obtain ⟨f, rfl⟩ := step_eq_raise_of_halt h hs ht
  have htaken : FaultTaken f.code f.info s (raise f s) := raise_faultTaken f s
  exact ⟨htaken, (stepResult_fault_iff s f.code f.info).mpr (.inr ⟨h, _, hs, htaken⟩)⟩

/-- Settles O18: a halted Step answers its own state, Load writes memory alone, and the other three operations write one
element each, none of them of the fault status. -/
theorem haltedMachineStaysHalted : Obligations.HaltedMachineStaysHalted := by
  intro s h
  refine ⟨step_halted s h, stepResult_halted h, fun o t hreset hp => ?_⟩
  cases o with
  | reset => exact absurd rfl hreset
  | load bytes =>
    cases hp
    have hkeeps := hostLoad_keepsAllBut bytes s
    have hhalt : (hostLoad bytes s).halt = s.halt := hkeeps .halt (by decide)
    exact ⟨hhalt.trans h, hkeeps .fcause (by decide), hkeeps .finfo (by decide)⟩
  | setKeys | clearRedraw | clearBeep => cases hp; exact ⟨h, rfl, rfl⟩
  | step =>
    obtain rfl := Host.Outcome.next.inj ((step_halted s h).symm.trans hp)
    exact ⟨h, rfl, rfl⟩

end Sys2Proof.Machine
end
